-- ==== Sys2Proof/Word.lean ====
section
/-!
DEFINITION. The value types of the machine (spec 00_scope.md R5, R7, R8): everything is unsigned.
Register contents, addresses and instruction words are bits; a register's number and a key's code
are names, one of sixteen, and are never computed with.
-/

namespace Sys2Proof

/-- A byte: the width of V0..VF, DT, ST and a memory cell (R5, `REG_BITS`). -/
abbrev Byte := BitVec 8

/-- 16 bits: the width of I, PC, a stack entry and an instruction word (R5, `WIDE_BITS`). -/
abbrev Word := BitVec 16

/-- The name of a general register, V0 to VF (10_state.md R20). -/
abbrev Reg := Fin 16

/-- A key code, 0x0 to 0xF; its four bits leave nothing out of range (46_keypad.md R196). -/
abbrev KeyCode := Fin 16

/-- The four bits of a register's field in an instruction word. -/
abbrev regBits (r : Reg) : BitVec 4 := BitVec.ofFin r

end Sys2Proof
end

