-- ==== Sys2Proof/Config.lean ====
section
/-!
DEFINITION. The parameters of the machine at the values this hardware takes (spec 00_scope.md R5), and
the one free value the spec leaves (44_random.md R171). The quirk parameters of R5 are fixed by the
spec and stand in the meanings themselves: shifts read Vx, block transfers leave I, logic leaves VF,
unknown opcodes halt and report.
-/

namespace Sys2Proof

/-- `MEM_SIZE`: the number of memory cells (R5, 20_memory.md R60). -/
def Config.memSize : Nat := 4096

/-- `PROG_BASE`: where a program is loaded and execution begins (R5, 70_reset_and_hazards.md R284). -/
def Config.progBase : Nat := 0x200

/-- `STACK_DEPTH`: the most return addresses the stack holds (R5, 10_state.md R26). -/
def Config.stackDepth : Nat := 16

/-- `MAX_PROGRAM_BYTES`: the longest program `LoadProgram` accepts (R5, 70_reset_and_hazards.md R282). -/
def Config.maxProgramBytes : Nat := 3584

/-- `FONT_BASE`: the address of the font's first byte (R5, 20_memory.md R69). -/
def Config.fontBase : Nat := 0x000

/-- `FONT_GLYPH_BYTES`: the bytes of one glyph (R5). -/
def Config.fontGlyphBytes : Nat := 5

/-- `FONT`: the sixteen glyphs of five bytes, digit 0 first (20_memory.md R69). -/
def Config.font : List Byte :=
  [0xF0, 0x90, 0x90, 0x90, 0xF0,  0x20, 0x60, 0x20, 0x20, 0x70] ++
  [0xF0, 0x10, 0xF0, 0x80, 0xF0,  0xF0, 0x10, 0xF0, 0x10, 0xF0] ++
  [0x90, 0x90, 0xF0, 0x10, 0x10,  0xF0, 0x80, 0xF0, 0x10, 0xF0] ++
  [0xF0, 0x80, 0xF0, 0x90, 0xF0,  0xF0, 0x10, 0x20, 0x40, 0x40] ++
  [0xF0, 0x90, 0xF0, 0x90, 0xF0,  0xF0, 0x90, 0xF0, 0x10, 0xF0] ++
  [0xF0, 0x90, 0xF0, 0x90, 0x90,  0xE0, 0x90, 0xE0, 0x90, 0xE0] ++
  [0xF0, 0x80, 0x80, 0x80, 0xF0,  0xE0, 0x90, 0x90, 0x90, 0xE0] ++
  [0xF0, 0x80, 0xF0, 0x80, 0xF0,  0xF0, 0x80, 0xF0, 0x80, 0x80]

/-- FREE VALUE (log entry 4): the draw r of the k-th CpuStep whose draw nothing else supplies
(44_random.md R171: "a free input of the step that executes `RND`, under no law"). It has no body, so
no proof can know it. -/
opaque Config.randomDraw : Nat → Byte

end Sys2Proof
end

