-- ==== Sys2Proof/Machine/State.lean ====
section
/-!
DEFINITION. The state of the machine as plain data (10_state.md, whole): every element of the spec's state
tuple, and four fields of the model's own, which carry the inputs and outputs of the event being handled
(log entries 1, 4 and 5). How the parts are read and written is in Machine/Ops.lean and the family files.
-/

namespace Sys2Proof.Machine

/-- The causes of the fatal faults (60_exceptions.md R240; codes 1, 2 and 3 in this order, D8). -/
inductive FaultCause where
  /-- Code 1: `CALL` with sixteen return addresses on the stack (R241). -/
  | stackOverflow
  /-- Code 2: `RET` with an empty stack (R242). -/
  | stackUnderflow
  /-- Code 3: the fetched word is no instruction (R243). -/
  | unknownOpcode
  deriving DecidableEq, Repr

/-- The fault record: the payload of Halted (10_state.md R32). `addr` is the address the faulting
instruction was fetched from, `word` the word fetched. -/
structure FaultRecord where
  cause : FaultCause
  addr : Word
  word : Word
  deriving DecidableEq, Repr

/-- The run-state (10_state.md R31). -/
inductive RunState where
  /-- No program is loaded, or the last load failed. -/
  | stopped
  /-- Instructions execute. -/
  | running
  /-- `Fx0A` has executed and register `x` awaits a key: the keypad's waiting slot (R30). -/
  | waitingForKey (x : Reg)
  /-- A fatal fault occurred. -/
  | halted (record : FaultRecord)
  deriving DecidableEq, Repr

/-- A countdown unit: the counter and its hidden enable (10_state.md R27, R28). -/
structure Timer where
  value : Byte
  running : Bool
  deriving DecidableEq, Repr

/-- The pixel grid `Disp[c][r]`: 64 columns of 32 rows, true = on (10_state.md R29). -/
abbrev Grid := Vector (Vector Bool 32) 64

/-- Memory: the cells that differ from what an unlisted address reads as, by rising address. The one
canonical form is `Memory.wf` in Machine/Ops.lean. -/
abbrev Memory := List Host.Cell

/-- The input events (10_state.md R36). -/
inductive Event where
  /-- One instruction step; `r` is the draw, used by `RND` only (44_random.md R171). -/
  | cpuStep (r : Byte)
  /-- One step of the delay timer (47_timers.md R209). -/
  | dtTick
  /-- One step of the sound timer (47_timers.md R209, R213). -/
  | stTick
  /-- A key goes down (46_keypad.md R193). -/
  | keyDown (k : KeyCode)
  /-- A key goes up (46_keypad.md R194). -/
  | keyUp (k : KeyCode)
  /-- A program is loaded: the machine's reset (70_reset_and_hazards.md R281). -/
  | loadProgram (bytes : List Byte)
  /-- The loader could obtain no program (70_reset_and_hazards.md R283). -/
  | loadFailure
  deriving DecidableEq, Repr

/-- The effects an event returns (10_state.md R37). -/
inductive Effect where
  /-- Emitted by every executed `CLS` and `DRW` (48_display.md R232). -/
  | displayChanged
  /-- Emitted by an StTick that finds the sound timer active (47_timers.md R213). -/
  | playSound
  /-- Emitted by the CpuStep that halts (60_exceptions.md R246). -/
  | fault (record : FaultRecord)
  /-- Emitted by a load that failed (70_reset_and_hazards.md R282, R283). -/
  | loadFailed
  deriving DecidableEq, Repr

/-- The whole machine. The fields down to `mem` are the state tuple of 10_state.md; SP is the length of
`stack` (R26), VF is `v[15]` (R21). -/
structure State where
  /-- V0 to VF (R20). -/
  v : Vector Byte 16
  /-- I, the index register (R22). -/
  index : Word
  /-- PC (R23). -/
  pc : Word
  /-- The return addresses, newest last (R26). -/
  stack : List Word
  /-- DT, the delay timer (R27). -/
  dt : Timer
  /-- ST, the sound timer (R28). -/
  st : Timer
  /-- The display grid (R29). -/
  disp : Grid
  /-- The key states, true = pressed (R30). -/
  key : Vector Bool 16
  /-- The run-state, with the waiting slot and the fault record (R31, R32). -/
  runState : RunState
  /-- The 4096 memory cells (R33). -/
  mem : Memory
  /-- MODEL'S OWN, a free value: the draw r of the CpuStep being executed (R35(b), log entry 4). -/
  draw : Byte
  /-- MODEL'S OWN: how many draws were taken from `Config.randomDraw` (log entry 4). -/
  drawCount : Nat
  /-- MODEL'S OWN: the events the environment delivers next, first one first (R36, log entry 1). -/
  script : List Event
  /-- MODEL'S OWN: the effects returned by the event last handled, in order (R37, log entry 5). -/
  effects : List Effect
  deriving DecidableEq, Repr

/-- The interface's fault outcomes: there are none. Nobody raises one, which is safe: the spec's three
faults have an effect of their own (60_exceptions.md R246), so they are next states in which `runState`
is `halted`, and every event handler is total (00_scope.md R6; log entry 8). -/
inductive Fault where
  deriving DecidableEq, Repr

/-- Why a step has no meaning in this model. -/
inductive Refusal where
  /-- An instruction this model gives no meaning yet: safe, since nothing can be proved of its effect.
  Raised by no arm of `exec` now: all 34 instructions have their meaning. -/
  | notModelled (mnemonic : String)
  deriving DecidableEq, Repr

/-- A timer at reset: 0 and not running (10_state.md R40). -/
def Timer.reset : Timer := ⟨0, false⟩

/-- A grid with every cell off. -/
def Grid.clear : Grid := Vector.replicate 64 (Vector.replicate 32 false)

/-- The power-on state (70_reset_and_hazards.md R280): the reset values of 10_state.md R40 with the
run-state Stopped and no program. Memory lists nothing: an unlisted cell reads as its power-on contents.
The last four fields are the model's own (log entries 1, 4 and 5). -/
def State.reset : State where
  v := Vector.replicate 16 0
  index := 0
  pc := 0x0200
  stack := []
  dt := Timer.reset
  st := Timer.reset
  disp := Grid.clear
  key := Vector.replicate 16 false
  runState := .stopped
  mem := []
  draw := 0
  drawCount := 0
  script := []
  effects := []

end Sys2Proof.Machine
end

