-- ==== Sys2Proof/Machine/Ops.lean ====
section
/-!
DEFINITION. The named operations over memory, registers and the stack, and the one way a fault is taken.
No meaning touches a field of these but through them.
-/

namespace Sys2Proof.Machine

/-! ### Memory -/

/-- The cell an address selects: the low 12 bits of the address (20_memory.md R63, masked, not clamped). -/
def cellOf (addr : Nat) : Nat := addr % Config.memSize

/-- What a cell holds at power-on and so what an unlisted cell reads as: the font, and 0 elsewhere
(70_reset_and_hazards.md R280, 20_memory.md R69; log entry 11). -/
def Memory.unlisted (a : Nat) : Byte :=
  if Config.fontBase ≤ a then Config.font.getD (a - Config.fontBase) 0 else 0

/-- The byte in cell `a`. -/
def Memory.cell : Memory → Nat → Byte
  | [], a => Memory.unlisted a
  | (b, u) :: rest, a => if a = b then u else Memory.cell rest a

/-- Memory with byte `u` in cell `a`, in canonical form again: a cell that holds what it holds unlisted
is not listed. -/
def Memory.put : Memory → Nat → Byte → Memory
  | [], a, u => if u = Memory.unlisted a then [] else [(a, u)]
  | (b, w) :: rest, a, u =>
    if a < b then (if u = Memory.unlisted a then (b, w) :: rest else (a, u) :: (b, w) :: rest)
    else if a = b then (if u = Memory.unlisted a then rest else (a, u) :: rest)
    else (b, w) :: Memory.put rest a u

/-- The canonical form: addresses strictly rising, all of them cells of the machine, and no entry equal
to what its cell reads as unlisted. -/
abbrev Memory.wf (m : Memory) : Prop :=
  m.Pairwise (fun c d => c.1 < d.1) ∧ ∀ c ∈ m, c.1 < Config.memSize ∧ c.2 ≠ Memory.unlisted c.1

/-- `MemRead(addr, 1)` (20_memory.md R61). -/
def Memory.read (m : Memory) (addr : Nat) : Byte := m.cell (cellOf addr)

/-- `MemWrite(addr, 1, u)` (20_memory.md R62). -/
def Memory.write (m : Memory) (addr : Nat) (u : Byte) : Memory := m.put (cellOf addr) u

/-- The loader primitive `Load(bytes, start)` (20_memory.md R76). -/
def Memory.load : Memory → List Byte → Nat → Memory
  | m, [], _ => m
  | m, b :: rest, start => (m.write start b).load rest (start + 1)

/-- The machine's memory read port. -/
def State.memRead (s : State) (addr : Nat) : Byte := s.mem.read addr

/-- The machine's memory write port. -/
def State.memWrite (s : State) (addr : Nat) (u : Byte) : State := { s with mem := s.mem.write addr u }

/-! ### General registers (10_state.md R20, R21) -/

/-- `V[r]`. -/
def State.reg (s : State) (r : Reg) : Byte := s.v.get r

/-- `V[r] <- u`; no register is hard-wired. -/
def State.setReg (s : State) (r : Reg) (u : Byte) : State := { s with v := s.v.set r.val u r.isLt }

/-- VF, the flag register (R21). -/
abbrev regF : Reg := 15

/-! ### Program counter -/

/-- PC moved past the instruction just fetched, modulo 65536 (30_encoding.md R100). -/
def State.advancePc (s : State) : State := { s with pc := s.pc + 2 }

/-- The address the instruction being executed was fetched from: PC has moved past it (log entry 6). -/
def State.fetchAddr (s : State) : Word := s.pc - 2

/-! ### The return stack (10_state.md R26) -/

/-- `Push(u)`; `none` where the rule raises StackOverflow. -/
def State.push (s : State) (u : Word) : Option State :=
  if s.stack.length = Config.stackDepth then none else some { s with stack := s.stack ++ [u] }

/-- `Pop()`; `none` where the rule raises StackUnderflow. -/
def State.pop (s : State) : Option (Word × State) :=
  match s.stack.getLast? with
  | none => none
  | some u => some (u, { s with stack := s.stack.dropLast })

/-! ### Effects and faults -/

/-- `emit`: the effect joins the list the current event returns (00_scope.md R9, 10_state.md R37). -/
def State.emit (s : State) (e : Effect) : State := { s with effects := s.effects ++ [e] }

/-- `raise`: the machine's only trap entry (60_exceptions.md R246). The engine halts with the record and
reports it; PC keeps its advanced value and nothing else changes. There is no return from it (R251). -/
def State.raiseFault (s : State) (cause : FaultCause) (addr word : Word) : State :=
  { s with runState := .halted ⟨cause, addr, word⟩ }.emit (.fault ⟨cause, addr, word⟩)

/-- The numeric code of a cause (60_exceptions.md R240, D8). -/
def FaultCause.code : FaultCause → Nat
  | .stackOverflow => 1
  | .stackUnderflow => 2
  | .unknownOpcode => 3

end Sys2Proof.Machine
end

