-- ==== Sys2Proof/Machine/Flags.lean ====
section
/-!
DEFINITION. The flag values and the order in which result and flag are written (43_arithmetic_logic.md
R160 to R162 and preamble).
-/

namespace Sys2Proof.Machine

/-- A flag in VF: exactly 0 or 1 (10_state.md R21). -/
def flagByte (b : Bool) : Byte := if b then 1 else 0

/-- Carry: the true sum exceeds 255 (R161). -/
def carryOf (a b : Byte) : Bool := decide (255 < a.toNat + b.toNat)

/-- Not borrow: the minuend `a` is at least the subtrahend `b` (R161, equal operands included). -/
def noBorrow (a b : Byte) : Bool := decide (b.toNat ≤ a.toNat)

/-- The result goes to Vx first and the flag to VF second, so with x = F the flag stays
(43_arithmetic_logic.md preamble, convention 2). -/
def State.setRegAndFlag (s : State) (x : Reg) (result : Byte) (flag : Bool) : State :=
  (s.setReg x result).setReg regF (flagByte flag)

end Sys2Proof.Machine
end

