-- ==== Sys2Proof/Machine/Operands.lean ====
section
/-!
DEFINITION. The operand forms: immediates widened, addresses, the low nibble of a register as a key or a
digit, and the skip (30_encoding.md R92, 45_index_and_memory.md R180, 46_keypad.md R195).
-/

namespace Sys2Proof.Machine

/-- A 12-bit address in a 16-bit register (R92, zero-extended). -/
def addr16 (nnn : BitVec 12) : Word := nnn.setWidth 16

/-- A register's byte in a 16-bit sum (R92, zero-extended). -/
def byte16 (b : Byte) : Word := b.setWidth 16

/-- The effective address `I + k`, an integer of up to 17 bits; the memory port masks it (R180). -/
def State.effAddr (s : State) (k : Nat) : Nat := s.index.toNat + k

/-- The low nibble of a byte, the way a key or a font digit is selected (R195, R176). -/
def lowNibble (b : Byte) : Fin 16 := ⟨b.toNat % 16, Nat.mod_lt _ (by decide)⟩

/-- A key code in a register (46_keypad.md R193, zero-extended). -/
def keyByte (k : KeyCode) : Byte := BitVec.ofNat 8 k.val

/-- The address of a digit's glyph: `FONT_BASE + 5 * d` (45_index_and_memory.md R176). -/
def glyphAddr (d : Fin 16) : Word := BitVec.ofNat 16 (Config.fontBase + Config.fontGlyphBytes * d.val)

/-- The skip: PC moves past one more instruction where the condition holds (41_skips.md). -/
def State.skipIf (s : State) (c : Bool) : State := if c then { s with pc := s.pc + 2 } else s

end Sys2Proof.Machine
end

