-- ==== Sys2Proof/Machine/Arithmetic.lean ====
section
/-!
DEFINITION. ADD, OR, AND, XOR, SUB, SHR, SUBN, SHL (43_arithmetic_logic.md). Both operands are read before
anything is written; the logic operations and `ADD Vx, byte` leave VF unless x = F (R150 to R153).
-/

namespace Sys2Proof.Machine

/-- `ADD Vx, byte` (R150): modulo 256, no carry. -/
def execAddByte (x : Reg) (kk : Byte) (s : State) : Host.Outcome State Fault Refusal :=
  .next (s.setReg x (s.reg x + kk))

/-- `OR Vx, Vy` (R151). -/
def execOrReg (x y : Reg) (s : State) : Host.Outcome State Fault Refusal :=
  .next (s.setReg x (s.reg x ||| s.reg y))

/-- `AND Vx, Vy` (R152). -/
def execAndReg (x y : Reg) (s : State) : Host.Outcome State Fault Refusal :=
  .next (s.setReg x (s.reg x &&& s.reg y))

/-- `XOR Vx, Vy` (R153). -/
def execXorReg (x y : Reg) (s : State) : Host.Outcome State Fault Refusal :=
  .next (s.setReg x (s.reg x ^^^ s.reg y))

/-- `ADD Vx, Vy` (R154): VF is the carry. -/
def execAddReg (x y : Reg) (s : State) : Host.Outcome State Fault Refusal :=
  .next (s.setRegAndFlag x (s.reg x + s.reg y) (carryOf (s.reg x) (s.reg y)))

/-- `SUB Vx, Vy` (R155): Vx - Vy, VF is not-borrow. -/
def execSub (x y : Reg) (s : State) : Host.Outcome State Fault Refusal :=
  .next (s.setRegAndFlag x (s.reg x - s.reg y) (noBorrow (s.reg x) (s.reg y)))

/-- `SHR Vx` (R156, R162): Vx alone is read, whatever y; VF is the old bit 0. -/
def execShr (x _y : Reg) (s : State) : Host.Outcome State Fault Refusal :=
  .next (s.setRegAndFlag x (s.reg x >>> 1) ((s.reg x).getLsbD 0))

/-- `SUBN Vx, Vy` (R157): Vy - Vx, VF is not-borrow. -/
def execSubn (x y : Reg) (s : State) : Host.Outcome State Fault Refusal :=
  .next (s.setRegAndFlag x (s.reg y - s.reg x) (noBorrow (s.reg y) (s.reg x)))

/-- `SHL Vx` (R158, R162): Vx alone is read, whatever y; VF is the old bit 7. -/
def execShl (x _y : Reg) (s : State) : Host.Outcome State Fault Refusal :=
  .next (s.setRegAndFlag x (s.reg x <<< 1) ((s.reg x).getLsbD 7))

end Sys2Proof.Machine
end

