-- ==== Sys2Proof/Syntax.lean ====
section
/-!
DEFINITION. The instruction set: one constructor per row of spec/opcode_table.json (30_encoding.md R93),
in the table's order. An operand has the width of its field (R92), so a term of `Instr` is always an
instruction of the table; raw words are checked in WellFormed and read in Decode.
-/

namespace Sys2Proof

/-- The 34 instructions. `x` and `y` name registers, `kk` is a byte, `nnn` a 12-bit address, `n` a
sprite height. -/
inductive Instr where
  /-- `00E0 CLS`, 48_display.md R225. -/
  | cls
  /-- `00EE RET`, 40_control_flow.md R120. -/
  | ret
  /-- `1nnn JP addr`, 40_control_flow.md R121. -/
  | jp (nnn : BitVec 12)
  /-- `2nnn CALL addr`, 40_control_flow.md R122. -/
  | call (nnn : BitVec 12)
  /-- `3xkk SE Vx, byte`, 41_skips.md R130. -/
  | seByte (x : Reg) (kk : Byte)
  /-- `4xkk SNE Vx, byte`, 41_skips.md R131. -/
  | sneByte (x : Reg) (kk : Byte)
  /-- `5xy0 SE Vx, Vy`, 41_skips.md R132. -/
  | seReg (x y : Reg)
  /-- `6xkk LD Vx, byte`, 42_loads.md R140. -/
  | ldByte (x : Reg) (kk : Byte)
  /-- `7xkk ADD Vx, byte`, 43_arithmetic_logic.md R150. -/
  | addByte (x : Reg) (kk : Byte)
  /-- `8xy0 LD Vx, Vy`, 42_loads.md R141. -/
  | ldReg (x y : Reg)
  /-- `8xy1 OR Vx, Vy`, 43_arithmetic_logic.md R151. -/
  | orReg (x y : Reg)
  /-- `8xy2 AND Vx, Vy`, 43_arithmetic_logic.md R152. -/
  | andReg (x y : Reg)
  /-- `8xy3 XOR Vx, Vy`, 43_arithmetic_logic.md R153. -/
  | xorReg (x y : Reg)
  /-- `8xy4 ADD Vx, Vy`, 43_arithmetic_logic.md R154. -/
  | addReg (x y : Reg)
  /-- `8xy5 SUB Vx, Vy`, 43_arithmetic_logic.md R155. -/
  | sub (x y : Reg)
  /-- `8xy6 SHR Vx {, Vy}`, 43_arithmetic_logic.md R156; `y` is encoded and not used. -/
  | shr (x y : Reg)
  /-- `8xy7 SUBN Vx, Vy`, 43_arithmetic_logic.md R157. -/
  | subn (x y : Reg)
  /-- `8xyE SHL Vx {, Vy}`, 43_arithmetic_logic.md R158; `y` is encoded and not used. -/
  | shl (x y : Reg)
  /-- `9xy0 SNE Vx, Vy`, 41_skips.md R133. -/
  | sneReg (x y : Reg)
  /-- `Annn LD I, addr`, 42_loads.md R142. -/
  | ldI (nnn : BitVec 12)
  /-- `Bnnn JP V0, addr`, 40_control_flow.md R123. -/
  | jpV0 (nnn : BitVec 12)
  /-- `Cxkk RND Vx, byte`, 44_random.md R170. -/
  | rnd (x : Reg) (kk : Byte)
  /-- `Dxyn DRW Vx, Vy, nibble`, 48_display.md R226. -/
  | drw (x y : Reg) (n : BitVec 4)
  /-- `Ex9E SKP Vx`, 46_keypad.md R190. -/
  | skp (x : Reg)
  /-- `ExA1 SKNP Vx`, 46_keypad.md R191. -/
  | sknp (x : Reg)
  /-- `Fx07 LD Vx, DT`, 47_timers.md R205. -/
  | ldVxDt (x : Reg)
  /-- `Fx0A LD Vx, K`, 46_keypad.md R192. -/
  | ldVxK (x : Reg)
  /-- `Fx15 LD DT, Vx`, 47_timers.md R206. -/
  | ldDtVx (x : Reg)
  /-- `Fx18 LD ST, Vx`, 47_timers.md R207. -/
  | ldStVx (x : Reg)
  /-- `Fx1E ADD I, Vx`, 45_index_and_memory.md R175. -/
  | addIVx (x : Reg)
  /-- `Fx29 LD F, Vx`, 45_index_and_memory.md R176. -/
  | ldFVx (x : Reg)
  /-- `Fx33 LD B, Vx`, 45_index_and_memory.md R177. -/
  | ldBVx (x : Reg)
  /-- `Fx55 LD [I], Vx`, 45_index_and_memory.md R178. -/
  | ldMemVx (x : Reg)
  /-- `Fx65 LD Vx, [I]`, 45_index_and_memory.md R179. -/
  | ldVxMem (x : Reg)
  deriving DecidableEq, Repr

end Sys2Proof
end

