-- ==== Sys2Proof/WellFormed.lean ====
section
/-!
DEFINITION. What counts as well formed before it is decoded or loaded. Two kinds of raw input can be ill
formed: an instruction word, which must match a row of the opcode table (30_encoding.md R93, R95), and a
program, which must fit between 0x200 and 0xFFF (70_reset_and_hazards.md R281, R282). An `Instr` needs no
check of its own: its operands have exactly the widths of their fields (R92).
-/

namespace Sys2Proof

/-- One row of the opcode table: a word matches it when `(w & mask) = pattern` (30_encoding.md R93). -/
structure OpcodeRow where
  mask : Word
  pattern : Word
  deriving DecidableEq, Repr

/-- The row's own test of a word. -/
def OpcodeRow.covers (row : OpcodeRow) (w : Word) : Bool := w &&& row.mask == row.pattern

/-- The row of each instruction, mask and match as spec/opcode_table.json gives them. -/
def Instr.row : Instr → OpcodeRow
  | .cls         => ⟨0xFFFF, 0x00E0⟩
  | .ret         => ⟨0xFFFF, 0x00EE⟩
  | .jp _        => ⟨0xF000, 0x1000⟩
  | .call _      => ⟨0xF000, 0x2000⟩
  | .seByte _ _  => ⟨0xF000, 0x3000⟩
  | .sneByte _ _ => ⟨0xF000, 0x4000⟩
  | .seReg _ _   => ⟨0xF00F, 0x5000⟩
  | .ldByte _ _  => ⟨0xF000, 0x6000⟩
  | .addByte _ _ => ⟨0xF000, 0x7000⟩
  | .ldReg _ _   => ⟨0xF00F, 0x8000⟩
  | .orReg _ _   => ⟨0xF00F, 0x8001⟩
  | .andReg _ _  => ⟨0xF00F, 0x8002⟩
  | .xorReg _ _  => ⟨0xF00F, 0x8003⟩
  | .addReg _ _  => ⟨0xF00F, 0x8004⟩
  | .sub _ _     => ⟨0xF00F, 0x8005⟩
  | .shr _ _     => ⟨0xF00F, 0x8006⟩
  | .subn _ _    => ⟨0xF00F, 0x8007⟩
  | .shl _ _     => ⟨0xF00F, 0x800E⟩
  | .sneReg _ _  => ⟨0xF00F, 0x9000⟩
  | .ldI _       => ⟨0xF000, 0xA000⟩
  | .jpV0 _      => ⟨0xF000, 0xB000⟩
  | .rnd _ _     => ⟨0xF000, 0xC000⟩
  | .drw _ _ _   => ⟨0xF000, 0xD000⟩
  | .skp _       => ⟨0xF0FF, 0xE09E⟩
  | .sknp _      => ⟨0xF0FF, 0xE0A1⟩
  | .ldVxDt _    => ⟨0xF0FF, 0xF007⟩
  | .ldVxK _     => ⟨0xF0FF, 0xF00A⟩
  | .ldDtVx _    => ⟨0xF0FF, 0xF015⟩
  | .ldStVx _    => ⟨0xF0FF, 0xF018⟩
  | .addIVx _    => ⟨0xF0FF, 0xF01E⟩
  | .ldFVx _     => ⟨0xF0FF, 0xF029⟩
  | .ldBVx _     => ⟨0xF0FF, 0xF033⟩
  | .ldMemVx _   => ⟨0xF0FF, 0xF055⟩
  | .ldVxMem _   => ⟨0xF0FF, 0xF065⟩

/-- The whole table in its own order (30_encoding.md R93). -/
def opcodeTable : List OpcodeRow :=
  [⟨0xFFFF, 0x00E0⟩, ⟨0xFFFF, 0x00EE⟩, ⟨0xF000, 0x1000⟩, ⟨0xF000, 0x2000⟩, ⟨0xF000, 0x3000⟩,
   ⟨0xF000, 0x4000⟩, ⟨0xF00F, 0x5000⟩, ⟨0xF000, 0x6000⟩, ⟨0xF000, 0x7000⟩] ++
  [⟨0xF00F, 0x8000⟩, ⟨0xF00F, 0x8001⟩, ⟨0xF00F, 0x8002⟩, ⟨0xF00F, 0x8003⟩, ⟨0xF00F, 0x8004⟩,
   ⟨0xF00F, 0x8005⟩, ⟨0xF00F, 0x8006⟩, ⟨0xF00F, 0x8007⟩, ⟨0xF00F, 0x800E⟩] ++
  [⟨0xF00F, 0x9000⟩, ⟨0xF000, 0xA000⟩, ⟨0xF000, 0xB000⟩, ⟨0xF000, 0xC000⟩, ⟨0xF000, 0xD000⟩,
   ⟨0xF0FF, 0xE09E⟩, ⟨0xF0FF, 0xE0A1⟩] ++
  [⟨0xF0FF, 0xF007⟩, ⟨0xF0FF, 0xF00A⟩, ⟨0xF0FF, 0xF015⟩, ⟨0xF0FF, 0xF018⟩, ⟨0xF0FF, 0xF01E⟩,
   ⟨0xF0FF, 0xF029⟩, ⟨0xF0FF, 0xF033⟩, ⟨0xF0FF, 0xF055⟩, ⟨0xF0FF, 0xF065⟩]

/-- A well-formed word matches some row of the table; every other word is an unknown opcode (R95). -/
def wellFormedWord (w : Word) : Bool := opcodeTable.any (·.covers w)

/-- A well-formed program fits into memory from the load address up (70_reset_and_hazards.md R282). -/
def wellFormedProgram (bytes : List Byte) : Bool := decide (bytes.length ≤ Config.maxProgramBytes)

end Sys2Proof
end

