-- ==== Sys2Proof/Decode.lean ====
section
/-!
DEFINITION. Reading and writing instruction words (30_encoding.md R90 to R98). The decoder follows `Decode`
of R94 class by class, is total on all 65536 words and rejects an unknown word under the name of its class
(R95). The encoder below it is written from the formats of R91.
-/

namespace Sys2Proof

/-! ### The fields of a word (R10, R90) -/

/-- `op = w[15:12]`, the opcode class. -/
def opField (w : Word) : BitVec 4 := w.extractLsb' 12 4

/-- `x = w[11:8]`, the first register. -/
def xField (w : Word) : Reg := (w.extractLsb' 8 4).toFin

/-- `y = w[7:4]`, the second register. -/
def yField (w : Word) : Reg := (w.extractLsb' 4 4).toFin

/-- `n = w[3:0]`, the 4-bit immediate or function code. -/
def nField (w : Word) : BitVec 4 := w.extractLsb' 0 4

/-- `kk = w[7:0]`, the 8-bit immediate or function code. -/
def kkField (w : Word) : Byte := w.extractLsb' 0 8

/-- `nnn = w[11:0]`, the 12-bit address. -/
def nnnField (w : Word) : BitVec 12 := w.extractLsb' 0 12

/-! ### The decoder -/

/-- Why a word or a byte sequence is no instruction: the classes of R95, and an input of fewer than two
bytes (R98: every instruction is two bytes). -/
inductive DecodeError where
  /-- `0nnn` other than `00E0` and `00EE`, the historical SYS space (R96). -/
  | unknownClass0
  /-- `5xyn` with n not 0. -/
  | unknownClass5
  /-- `8xyn` with n in 8 to D or F. -/
  | unknownClass8
  /-- `9xyn` with n not 0. -/
  | unknownClass9
  /-- `Exkk` with kk neither 9E nor A1. -/
  | unknownClassE
  /-- `Fxkk` with kk none of the nine codes. -/
  | unknownClassF
  /-- Fewer than two bytes. -/
  | truncated
  deriving DecidableEq, Repr

/-- Class 0x0 of R94. -/
def decodeClass0 (w : Word) : Except DecodeError Instr :=
  if w = 0x00E0#16 then .ok .cls
  else if w = 0x00EE#16 then .ok .ret
  else .error .unknownClass0

/-- Class 0x8 of R94: the low nibble selects the operation. -/
def decodeClass8 (x y : Reg) (n : BitVec 4) : Except DecodeError Instr :=
  match n.toNat with
  | 0x0 => .ok (.ldReg x y)
  | 0x1 => .ok (.orReg x y)
  | 0x2 => .ok (.andReg x y)
  | 0x3 => .ok (.xorReg x y)
  | 0x4 => .ok (.addReg x y)
  | 0x5 => .ok (.sub x y)
  | 0x6 => .ok (.shr x y)
  | 0x7 => .ok (.subn x y)
  | 0xE => .ok (.shl x y)
  | _ => .error .unknownClass8

/-- Class 0xE of R94: the low byte selects the operation. -/
def decodeClassE (x : Reg) (kk : Byte) : Except DecodeError Instr :=
  if kk = 0x9E#8 then .ok (.skp x)
  else if kk = 0xA1#8 then .ok (.sknp x)
  else .error .unknownClassE

/-- Class 0xF of R94: the low byte selects the operation. -/
def decodeClassF (x : Reg) (kk : Byte) : Except DecodeError Instr :=
  if kk = 0x07#8 then .ok (.ldVxDt x)
  else if kk = 0x0A#8 then .ok (.ldVxK x)
  else if kk = 0x15#8 then .ok (.ldDtVx x)
  else if kk = 0x18#8 then .ok (.ldStVx x)
  else if kk = 0x1E#8 then .ok (.addIVx x)
  else if kk = 0x29#8 then .ok (.ldFVx x)
  else if kk = 0x33#8 then .ok (.ldBVx x)
  else if kk = 0x55#8 then .ok (.ldMemVx x)
  else if kk = 0x65#8 then .ok (.ldVxMem x)
  else .error .unknownClassF

/-- `Decode(w)` of R94, total on all words. -/
def decode (w : Word) : Except DecodeError Instr :=
  match (opField w).toNat with
  | 0x0 => decodeClass0 w
  | 0x1 => .ok (.jp (nnnField w))
  | 0x2 => .ok (.call (nnnField w))
  | 0x3 => .ok (.seByte (xField w) (kkField w))
  | 0x4 => .ok (.sneByte (xField w) (kkField w))
  | 0x5 => if nField w = 0#4 then .ok (.seReg (xField w) (yField w)) else .error .unknownClass5
  | 0x6 => .ok (.ldByte (xField w) (kkField w))
  | 0x7 => .ok (.addByte (xField w) (kkField w))
  | 0x8 => decodeClass8 (xField w) (yField w) (nField w)
  | 0x9 => if nField w = 0#4 then .ok (.sneReg (xField w) (yField w)) else .error .unknownClass9
  | 0xA => .ok (.ldI (nnnField w))
  | 0xB => .ok (.jpV0 (nnnField w))
  | 0xC => .ok (.rnd (xField w) (kkField w))
  | 0xD => .ok (.drw (xField w) (yField w) (nField w))
  | 0xE => decodeClassE (xField w) (kkField w)
  | _ => decodeClassF (xField w) (kkField w)

/-- The word two bytes hold, the byte at the lower address first (20_memory.md R64, big-endian). -/
def wordOfBytes (hi lo : Byte) : Word := hi ++ lo

/-- Reads one instruction from a byte sequence and returns the bytes after it (R90: always two). -/
def decodeBytes : List Byte → Except DecodeError (Instr × List Byte)
  | hi :: lo :: rest => (decode (wordOfBytes hi lo)).map (·, rest)
  | _ => .error .truncated

/-! ### The encoder, by the formats of R91 -/

/-- Format `F_NNN`. -/
def formatNNN (c : BitVec 4) (nnn : BitVec 12) : Word := c ++ nnn

/-- Format `F_XKK`, and `F_XFF` with the function code as `kk`. -/
def formatXKK (c : BitVec 4) (x : Reg) (kk : Byte) : Word := c ++ regBits x ++ kk

/-- Format `F_XYN`, and `F_XYF` with the function code as `n`. -/
def formatXYN (c : BitVec 4) (x y : Reg) (n : BitVec 4) : Word := c ++ regBits x ++ regBits y ++ n

/-- The word of an instruction (R91, R93). -/
def encode : Instr → Word
  | .cls          => 0x00E0
  | .ret          => 0x00EE
  | .jp nnn       => formatNNN 0x1 nnn
  | .call nnn     => formatNNN 0x2 nnn
  | .seByte x kk  => formatXKK 0x3 x kk
  | .sneByte x kk => formatXKK 0x4 x kk
  | .seReg x y    => formatXYN 0x5 x y 0x0
  | .ldByte x kk  => formatXKK 0x6 x kk
  | .addByte x kk => formatXKK 0x7 x kk
  | .ldReg x y    => formatXYN 0x8 x y 0x0
  | .orReg x y    => formatXYN 0x8 x y 0x1
  | .andReg x y   => formatXYN 0x8 x y 0x2
  | .xorReg x y   => formatXYN 0x8 x y 0x3
  | .addReg x y   => formatXYN 0x8 x y 0x4
  | .sub x y      => formatXYN 0x8 x y 0x5
  | .shr x y      => formatXYN 0x8 x y 0x6
  | .subn x y     => formatXYN 0x8 x y 0x7
  | .shl x y      => formatXYN 0x8 x y 0xE
  | .sneReg x y   => formatXYN 0x9 x y 0x0
  | .ldI nnn      => formatNNN 0xA nnn
  | .jpV0 nnn     => formatNNN 0xB nnn
  | .rnd x kk     => formatXKK 0xC x kk
  | .drw x y n    => formatXYN 0xD x y n
  | .skp x        => formatXKK 0xE x 0x9E
  | .sknp x       => formatXKK 0xE x 0xA1
  | .ldVxDt x     => formatXKK 0xF x 0x07
  | .ldVxK x      => formatXKK 0xF x 0x0A
  | .ldDtVx x     => formatXKK 0xF x 0x15
  | .ldStVx x     => formatXKK 0xF x 0x18
  | .addIVx x     => formatXKK 0xF x 0x1E
  | .ldFVx x      => formatXKK 0xF x 0x29
  | .ldBVx x      => formatXKK 0xF x 0x33
  | .ldMemVx x    => formatXKK 0xF x 0x55
  | .ldVxMem x    => formatXKK 0xF x 0x65

/-- The byte of a word that stands at the lower address (20_memory.md R64). -/
def highByte (w : Word) : Byte := w.extractLsb' 8 8

/-- The byte of a word that stands at the higher address (20_memory.md R64). -/
def lowByte (w : Word) : Byte := w.extractLsb' 0 8

/-- The two bytes of an instruction as memory holds them. -/
def encodeBytes (i : Instr) : List Byte := [highByte (encode i), lowByte (encode i)]

/-- The word of an instruction whose first `nbits` bits, numbered as spec/opcode_table.json numbers them,
are `w`, every further bit being 0. The table's words have 16 bits, bit 0 the least significant. -/
def tableWord (nbits w : Nat) : Word := BitVec.ofNat 16 (w % 2 ^ nbits)

/-- What the decoder reads from a word of the opcode table laid out in memory order. -/
def decodeTableWord (nbits w : Nat) : Option Instr :=
  match decodeBytes [highByte (tableWord nbits w), lowByte (tableWord nbits w)] with
  | .ok (i, _) => some i
  | .error _ => none

end Sys2Proof
end

