-- ==== Sys2Proof/Machine/ControlFlow.lean ====
section
/-!
DEFINITION. RET, JP, CALL, JP V0 (40_control_flow.md). PC is already the fetch address + 2. A fault's word
is the instruction's own encoding (log entry 7).
-/

namespace Sys2Proof.Machine

/-- `RET` (R120): the popped value goes to PC; an empty stack raises StackUnderflow (60_exceptions.md R242). -/
def execRet (s : State) : Host.Outcome State Fault Refusal :=
  match s.pop with
  | none => .next (s.raiseFault .stackUnderflow s.fetchAddr (encode .ret))
  | some (target, t) => .next { t with pc := target }

/-- `JP addr` (R121). -/
def execJp (nnn : BitVec 12) (s : State) : Host.Outcome State Fault Refusal :=
  .next { s with pc := addr16 nnn }

/-- `CALL addr` (R122): the advanced PC is pushed; a full stack raises StackOverflow (60_exceptions.md R241)
and the jump is not taken. -/
def execCall (nnn : BitVec 12) (s : State) : Host.Outcome State Fault Refusal :=
  match s.push s.pc with
  | none => .next (s.raiseFault .stackOverflow s.fetchAddr (encode (.call nnn)))
  | some t => .next { t with pc := addr16 nnn }

/-- `JP V0, addr` (R123): the sum keeps its 16 bits in PC. -/
def execJpV0 (nnn : BitVec 12) (s : State) : Host.Outcome State Fault Refusal :=
  .next { s with pc := addr16 nnn + byte16 (s.reg 0) }

end Sys2Proof.Machine
end

