-- ==== Sys2Proof/Machine/Display.lean ====
section
/-!
DEFINITION. The display: the grid, CLS, the sprite compositor with its collision detector, DRW, and the
read port (48_display.md).
-/

namespace Sys2Proof.Machine

/-- A pixel of the grid: column and row. -/
abbrev Pixel := Fin 64 × Fin 32

/-- The cell at any coordinates, wrapped modulo the grid's dimensions (R226). -/
def cellAt (c r : Nat) : Pixel := (⟨c % 64, Nat.mod_lt _ (by decide)⟩, ⟨r % 32, Nat.mod_lt _ (by decide)⟩)

/-- `Disp[c][r]` (10_state.md R29). -/
def Grid.at (g : Grid) (p : Pixel) : Bool := (g.get p.1).get p.2

/-- `Disp[c][r] <- not Disp[c][r]` (R227). -/
def Grid.toggle (g : Grid) (p : Pixel) : Grid :=
  g.set p.1.val ((g.get p.1).set p.2.val (!g.at p) p.2.isLt) p.1.isLt

/-- One 1 bit of a sprite: the cell is inverted, and a cell that was on makes a collision (R226, R228). -/
def drawCell (acc : Grid × Bool) (p : Pixel) : Grid × Bool := (acc.1.toggle p, acc.2 || acc.1.at p)

/-- The cells of a sprite row's 1 bits, from the leftmost pixel, which is bit 7 of the byte (R229). -/
def rowCells (x0 r : Nat) (b : Byte) : List Pixel :=
  (List.range 8).filterMap fun bit =>
    if b.getLsbD (7 - bit) then some (cellAt (x0 + bit) r) else none

/-- The cells of an n-row sprite's 1 bits in the order of R226's loops; row k is the byte at I + k. -/
def State.spriteCells (s : State) (x0 y0 n : Nat) : List Pixel :=
  (List.range n).flatMap fun row => rowCells x0 (y0 + row) (s.memRead (s.effAddr row))

/-- The compositor: the grid and the collision flag after a sprite is drawn (R226 to R228). -/
def Grid.draw (g : Grid) (cells : List Pixel) : Grid × Bool := cells.foldl drawCell (g, false)

/-- `CLS` (R225). -/
def execCls (s : State) : Host.Outcome State Fault Refusal :=
  .next ({ s with disp := Grid.clear }.emit .displayChanged)

/-- `DRW Vx, Vy, nibble` (R226): both coordinates are read before VF is written; memory is only read. -/
def execDrw (x y : Reg) (n : BitVec 4) (s : State) : Host.Outcome State Fault Refusal :=
  let drawn := s.disp.draw (s.spriteCells (s.reg x).toNat (s.reg y).toNat n.toNat)
  .next (({ s with disp := drawn.1 }.setReg regF (flagByte drawn.2)).emit .displayChanged)

/-- The read port `getCell(col, row)`: false outside the grid (R231). -/
def State.getCell (s : State) (col row : Nat) : Bool :=
  if h : col < 64 ∧ row < 32 then s.disp.at (⟨col, h.1⟩, ⟨row, h.2⟩) else false

end Sys2Proof.Machine
end

