-- ==== Sys2Proof/Machine/IndexMemory.lean ====
section
/-!
DEFINITION. ADD I, Vx; LD F, Vx; LD B, Vx; LD [I], Vx; LD Vx, [I] (45_index_and_memory.md). I is never
changed by an access (R180).
-/

namespace Sys2Proof.Machine

/-- The register of number k, for the block transfers' loops over k = 0 to x. -/
def regOfNat (k : Nat) : Reg := Fin.ofNat 16 k

/-- `MemWrite(I + k, 1, V[k])` for k = 0 to n - 1, ascending (R178). -/
def State.saveRegs (s : State) : Nat → State
  | 0 => s
  | n + 1 => (s.saveRegs n).memWrite (s.effAddr n) (s.reg (regOfNat n))

/-- `V[k] <- MemRead(I + k, 1)` for k = 0 to n - 1, ascending (R179). -/
def State.restoreRegs (s : State) : Nat → State
  | 0 => s
  | n + 1 => (s.restoreRegs n).setReg (regOfNat n) (s.memRead (s.effAddr n))

/-- `ADD I, Vx` (R175): modulo 65536, VF unchanged. -/
def execAddIVx (x : Reg) (s : State) : Host.Outcome State Fault Refusal :=
  .next { s with index := s.index + byte16 (s.reg x) }

/-- `LD F, Vx` (R176): the glyph of the low nibble. -/
def execLdFVx (x : Reg) (s : State) : Host.Outcome State Fault Refusal :=
  .next { s with index := glyphAddr (lowNibble (s.reg x)) }

/-- `LD B, Vx` (R177): hundreds, tens, ones at I, I + 1, I + 2. -/
def execLdBVx (x : Reg) (s : State) : Host.Outcome State Fault Refusal :=
  .next (((s.memWrite (s.effAddr 0) (s.reg x / 100)).memWrite (s.effAddr 1) (s.reg x / 10 % 10)).memWrite
    (s.effAddr 2) (s.reg x % 10))

/-- `LD [I], Vx` (R178): V0 to Vx, inclusive, to memory from I. -/
def execLdMemVx (x : Reg) (s : State) : Host.Outcome State Fault Refusal :=
  .next (s.saveRegs (x.val + 1))

/-- `LD Vx, [I]` (R179): V0 to Vx, inclusive, from memory at I. -/
def execLdVxMem (x : Reg) (s : State) : Host.Outcome State Fault Refusal :=
  .next (s.restoreRegs (x.val + 1))

end Sys2Proof.Machine
end

