-- ==== Sys2Proof/Machine/Keypad.lean ====
section
/-!
DEFINITION. The keypad: its slots, SKP, SKNP, LD Vx, K (46_keypad.md) and the key events.
-/

namespace Sys2Proof.Machine

/-- `Key[k]` (10_state.md R30). -/
def State.keyPressed (s : State) (k : KeyCode) : Bool := s.key.get k

/-- `Key[k] <- b`. -/
def State.setKey (s : State) (k : KeyCode) (b : Bool) : State := { s with key := s.key.set k.val b k.isLt }

/-- `SKP Vx` (R190): skip if the key of Vx's low nibble is pressed (R195). -/
def execSkp (x : Reg) (s : State) : Host.Outcome State Fault Refusal :=
  .next (s.skipIf (s.keyPressed (lowNibble (s.reg x))))

/-- `SKNP Vx` (R191): skip if the key of Vx's low nibble is not pressed (R195). -/
def execSknp (x : Reg) (s : State) : Host.Outcome State Fault Refusal :=
  .next (s.skipIf (!s.keyPressed (lowNibble (s.reg x))))

/-- `LD Vx, K` (R192): the engine waits; Vx is written by the KeyDown that ends the wait. -/
def execLdVxK (x : Reg) (s : State) : Host.Outcome State Fault Refusal :=
  .next { s with runState := .waitingForKey x }

/-- The `KeyDown(k)` event (R193): the slot is set in every run-state, and a waiting register captures the
code and ends the wait. -/
def State.onKeyDown (s : State) (k : KeyCode) : State :=
  match s.runState with
  | .waitingForKey x => { (s.setKey k true).setReg x (keyByte k) with runState := .running }
  | _ => s.setKey k true

/-- The `KeyUp(k)` event (R194). -/
def State.onKeyUp (s : State) (k : KeyCode) : State := s.setKey k false

end Sys2Proof.Machine
end

