-- ==== Sys2Proof/Machine/Loads.lean ====
section
/-!
DEFINITION. LD Vx, byte; LD Vx, Vy; LD I, addr (42_loads.md).
-/

namespace Sys2Proof.Machine

/-- `LD Vx, byte` (R140). -/
def execLdByte (x : Reg) (kk : Byte) (s : State) : Host.Outcome State Fault Refusal :=
  .next (s.setReg x kk)

/-- `LD Vx, Vy` (R141). -/
def execLdReg (x y : Reg) (s : State) : Host.Outcome State Fault Refusal :=
  .next (s.setReg x (s.reg y))

/-- `LD I, addr` (R142). -/
def execLdI (nnn : BitVec 12) (s : State) : Host.Outcome State Fault Refusal :=
  .next { s with index := addr16 nnn }

end Sys2Proof.Machine
end

