-- ==== Sys2Proof/Machine/Random.lean ====
section
/-!
DEFINITION. RND (44_random.md).
-/

namespace Sys2Proof.Machine

/-- `RND Vx, byte` (R170): the draw of this CpuStep, a free value (R171, log entry 4), masked by kk. -/
def execRnd (x : Reg) (kk : Byte) (s : State) : Host.Outcome State Fault Refusal :=
  .next (s.setReg x (s.draw &&& kk))

end Sys2Proof.Machine
end

