-- ==== Sys2Proof/Machine/Timers.lean ====
section
/-!
DEFINITION. The two countdown units: LD Vx, DT; LD DT, Vx; LD ST, Vx, the tick events and the sound output
(47_timers.md). The sound timer follows the delay timer by the spec's own analogy (R215).
-/

namespace Sys2Proof.Machine

/-- A write of a timer's value: non-zero starts it, zero leaves `running` as it is (R206, R207, R211). -/
def Timer.write (t : Timer) (u : Byte) : Timer := ⟨u, if u = 0 then t.running else true⟩

/-- `TimerStep` (R209): a running unit counts down, never below 0, and stops in the step that finds or
makes its value 0. -/
def Timer.step (t : Timer) : Timer :=
  if t.running then
    let value := if 0 < t.value.toNat then t.value - 1 else t.value
    ⟨value, decide (value ≠ 0)⟩
  else t

/-- A unit that is running with a value above 0 (R213). -/
def Timer.active (t : Timer) : Bool := t.running && decide (0 < t.value.toNat)

/-- The `SoundActive` level the environment may sample (R214). -/
def State.soundActive (s : State) : Bool := s.st.active

/-- `LD Vx, DT` (R205). -/
def execLdVxDt (x : Reg) (s : State) : Host.Outcome State Fault Refusal :=
  .next (s.setReg x s.dt.value)

/-- `LD DT, Vx` (R206). -/
def execLdDtVx (x : Reg) (s : State) : Host.Outcome State Fault Refusal :=
  .next { s with dt := s.dt.write (s.reg x) }

/-- `LD ST, Vx` (R207): no effect is emitted by the instruction. -/
def execLdStVx (x : Reg) (s : State) : Host.Outcome State Fault Refusal :=
  .next { s with st := s.st.write (s.reg x) }

/-- The `DtTick` event (R209), in every run-state (R216). -/
def State.onDtTick (s : State) : State := { s with dt := s.dt.step }

/-- The `StTick` event (R213), in every run-state: PlaySound where the unit was active before its step. -/
def State.onStTick (s : State) : State :=
  let t := { s with st := s.st.step }
  if s.st.active then t.emit .playSound else t

end Sys2Proof.Machine
end

