-- ==== Sys2Proof/Machine/Events.lean ====
section
/-!
DEFINITION. The events of the core (10_state.md R36): the CpuStep, the loads, and which event the
environment delivers next. The key and tick events are in Machine/Keypad.lean and Machine/Timers.lean.
-/

namespace Sys2Proof.Machine

/-- The fetch `MemRead(PC, 2)`: big-endian, each byte address masked by itself (20_memory.md R64). -/
def State.fetchWord (s : State) : Word := wordOfBytes (s.memRead s.pc.toNat) (s.memRead (s.pc.toNat + 1))

/-- `CpuStep(r)` (30_encoding.md R100): in every run-state but Running nothing changes; in Running one
instruction is fetched, PC moves past it, and it is executed or, where it is none, UnknownOpcode is raised
(60_exceptions.md R243). -/
def State.cpuStep (r : Byte) (s : State) : Host.Outcome State Fault Refusal :=
  match s.runState with
  | .running =>
    match decode s.fetchWord with
    | .ok i => exec i { s.advancePc with draw := r }
    | .error _ => .next (s.advancePc.raiseFault .unknownOpcode s.pc s.fetchWord)
  | _ => .next s

/-- The `LoadFailure` event (70_reset_and_hazards.md R283). -/
def State.onLoadFailure (s : State) : State := { s with runState := .stopped }.emit .loadFailed

/-- The `LoadProgram(bytes)` event (70_reset_and_hazards.md R281): every piece of the spec's state to its
reset value, the program copied to 0x200, RunState Running. A program that does not fit is a LoadFailure
(R282). The model's own fields are the environment's and are kept (log entry 9). -/
def State.onLoadProgram (s : State) (bytes : List Byte) : State :=
  if wellFormedProgram bytes then
    { State.reset with
      mem := Memory.load State.reset.mem bytes Config.progBase
      runState := .running
      draw := s.draw
      drawCount := s.drawCount
      script := s.script
      effects := s.effects }
  else s.onLoadFailure

/-- Every event of R36 handled, to completion (10_state.md R38). -/
def State.deliver (s : State) : Event → Host.Outcome State Fault Refusal
  | .cpuStep r => s.cpuStep r
  | .dtTick => .next s.onDtTick
  | .stTick => .next s.onStTick
  | .keyDown k => .next (s.onKeyDown k)
  | .keyUp k => .next (s.onKeyUp k)
  | .loadProgram bytes => .next (s.onLoadProgram bytes)
  | .loadFailure => .next s.onLoadFailure

/-- Events in a row, each handled to completion before the next (R38); the effects of all of them stand one
after the other in `effects`. -/
def State.deliverAll : State → List Event → Host.Outcome State Fault Refusal
  | s, [] => .next s
  | s, e :: rest =>
    match s.deliver e with
    | .next t => t.deliverAll rest
    | .fault r => .fault r
    | .refused r => .refused r

/-- Which event comes next, and the state it is delivered to: the first of the environment's script, or,
where that is empty, a CpuStep with a free draw (log entries 1, 2 and 4). The effects of the event before
are gone (log entry 5). -/
def State.nextEvent (s : State) : Event × State :=
  match s.script with
  | e :: rest => (e, { s with script := rest, effects := [] })
  | [] => (.cpuStep (Config.randomDraw s.drawCount), { s with drawCount := s.drawCount + 1, effects := [] })

/-- DOC00's `tick(n)`: one CpuStep per draw, nothing between them (30_encoding.md R101). -/
def tickEvents (draws : List Byte) : List Event := draws.map .cpuStep

end Sys2Proof.Machine
end

