-- ==== Sys2Proof/Machine/Step.lean ====
section
/-!
DEFINITION. One step: one event of the environment handled to completion (10_state.md R38).
-/

namespace Sys2Proof.Machine

/-- One event: the next one of the environment (`State.nextEvent`), delivered. -/
def step (s : State) : Host.Outcome State Fault Refusal := s.nextEvent.2.deliver s.nextEvent.1

/-- The state whose very next step fetches and runs the instruction of a table word: the word stored at PC,
RunState Running and an empty script, so that the next event is a CpuStep. It stands for a load
(log entry 3). -/
def State.withFetchWord (s : State) (nbits w : Nat) : State :=
  { (s.memWrite s.pc.toNat (highByte (tableWord nbits w))).memWrite (s.pc.toNat + 1)
      (lowByte (tableWord nbits w)) with
    runState := .running
    script := [] }

end Sys2Proof.Machine
end

