-- ==== Sys2Proof/Safety.lean ====
section
/-!
DEFINITION. The terms claims are made in: the invariant of the machine, what a frame leaves alone, which PC
an instruction leaves, and which pixels a sprite has. They are written from the spec's own sentences, not
from the meanings.
-/

namespace Sys2Proof.Machine

/-! ### The invariant (10_state.md R39; 60_exceptions.md R241 to R243, R246) -/

/-- A fault record agrees with the machine it stopped: PC stands just past the faulting instruction, and
the cause still holds of the word and the stack (60_exceptions.md R241 to R243, R246). -/
structure FaultRecord.Agrees (r : FaultRecord) (s : State) : Prop where
  pcPast : s.pc = r.addr + 2
  overflow : r.cause = .stackOverflow → s.stack.length = 16 ∧ r.word.toNat / 4096 = 2
  underflow : r.cause = .stackUnderflow → s.stack = [] ∧ r.word = 0x00EE#16
  unknown : r.cause = .unknownOpcode → wellFormedWord r.word = false

/-- What holds in every state reachable from power-on (R39 (a), (b)), with the canonical form of memory and
the sense of the fault record. -/
structure State.Inv (s : State) : Prop where
  stackDepth : s.stack.length ≤ 16
  dtRuns : s.dt.value ≠ 0 → s.dt.running = true
  stRuns : s.st.value ≠ 0 → s.st.running = true
  memory : s.mem.wf
  record : ∀ r, s.runState = .halted r → r.Agrees s

/-- A safe run never halts: the machine's fault outcome is not reached (60_exceptions.md R247). -/
def State.Safe (s : State) : Prop := ∀ r, s.runState ≠ .halted r

/-! ### Frames -/

/-- Every byte of memory reads as before. -/
def SameMemory (s t : State) : Prop := ∀ a, t.memRead a = s.memRead a

/-- Every general register outside the list is as before. -/
def SameRegsBut (written : List Reg) (s t : State) : Prop := ∀ r, r ∉ written → t.reg r = s.reg r

/-- Nothing but general registers differs: not I, PC, the stack, the timers, the display, the keys, the
run-state, memory or the event's inputs and effects. -/
def OnlyRegs (s t : State) : Prop := t = { s with v := t.v } ∧ SameMemory s t

/-- Nothing but memory differs. -/
def OnlyMemory (s t : State) : Prop := t = { s with mem := t.mem }

/-- Every cell but those the addresses select reads as before; an address is masked to 12 bits
(20_memory.md R63). -/
def SameMemoryBut (stored : List Nat) (s t : State) : Prop :=
  ∀ a, (∀ b ∈ stored, a % 4096 ≠ b % 4096) → t.memRead a = s.memRead a

/-! ### Tables of the spec -/

/-- How an instruction leaves PC, where `s.pc` is its fetch address + 2 (the table of 10_state.md R24). -/
def pcAfter (i : Instr) (s : State) : Word :=
  match i with
  | .jp nnn => addr16 nnn
  | .call nnn => if s.stack.length = 16 then s.pc else addr16 nnn
  | .ret => s.stack.getLast?.getD s.pc
  | .jpV0 nnn => addr16 nnn + byte16 (s.reg 0)
  | .seByte x kk => if s.reg x = kk then s.pc + 2 else s.pc
  | .sneByte x kk => if s.reg x = kk then s.pc else s.pc + 2
  | .seReg x y => if s.reg x = s.reg y then s.pc + 2 else s.pc
  | .sneReg x y => if s.reg x = s.reg y then s.pc else s.pc + 2
  | .skp x => if s.keyPressed (lowNibble (s.reg x)) then s.pc + 2 else s.pc
  | .sknp x => if s.keyPressed (lowNibble (s.reg x)) then s.pc else s.pc + 2
  | _ => s.pc

/-- The six instructions that write VF as a side effect (the table of 10_state.md R21). -/
def setsFlag : Instr → Bool
  | .addReg _ _ | .sub _ _ | .shr _ _ | .subn _ _ | .shl _ _ | .drw _ _ _ => true
  | _ => false

/-- Whether an instruction names register `r` as one it loads (the pseudocode of 42, 43, 44, 45 and 47). -/
def loadsReg (r : Reg) : Instr → Bool
  | .ldByte x _ | .addByte x _ | .ldReg x _ | .orReg x _ | .andReg x _ | .xorReg x _ | .addReg x _
  | .sub x _ | .shr x _ | .subn x _ | .shl x _ | .rnd x _ | .ldVxDt x => x == r
  | .ldVxMem x => decide (r ≤ x)
  | _ => false

/-- Pixel (c, r) is under a 1 bit of the n-row sprite at I drawn at (x0, y0) (48_display.md R226, R229). -/
def spriteLights (s : State) (x0 y0 n c r : Nat) : Prop :=
  ∃ row bit, row < n ∧ bit < 8 ∧ (s.memRead (s.index.toNat + row)).getLsbD (7 - bit) = true ∧
    c = (x0 + bit) % 64 ∧ r = (y0 + row) % 32

end Sys2Proof.Machine
end

