-- ==== Sys2Proof/Certificates/Slice0/Obligations.lean ====
section
/-!
DEFINITION. The statements for the provers, from the spec's numbered rules. In the statements about one
instruction the state is the one `exec` sees: PC has already moved past the instruction (00_scope.md R11),
so `s.pc = a + 2` says that it was fetched from a. Each begins with the instruction's encoding.

D<n> names a decision of 92_eei_decisions.md: a point the spec settles itself and marks as its own choice.
-/

open Sys2Proof Sys2Proof.Machine

/-! ### Loads (42_loads.md) -/

/-- R140: `6xkk` loads kk into Vx and does nothing else. -/
def Obligations.LoadByteWritesOnlyVx : Prop :=
  ∀ (x : Reg) (kk : Byte) (s : State),
    decode (0x6#4 ++ regBits x ++ kk) = .ok (.ldByte x kk) ∧
    ∃ t, exec (.ldByte x kk) s = .next t ∧ t.reg x = kk ∧ SameRegsBut [x] s t ∧ OnlyRegs s t

/-- R141: `8xy0` copies Vy into Vx and does nothing else. -/
def Obligations.LoadRegisterCopiesVy : Prop :=
  ∀ (x y : Reg) (s : State),
    decode (0x8#4 ++ regBits x ++ regBits y ++ 0x0#4) = .ok (.ldReg x y) ∧
    ∃ t, exec (.ldReg x y) s = .next t ∧ t.reg x = s.reg y ∧ SameRegsBut [x] s t ∧ OnlyRegs s t

/-- R142: `Annn` sets I to nnn, its upper four bits 0, and changes nothing else. -/
def Obligations.LoadIndexSetsI : Prop :=
  ∀ (nnn : BitVec 12) (s : State),
    decode (0xA#4 ++ nnn) = .ok (.ldI nnn) ∧
    ∃ t, exec (.ldI nnn) s = .next t ∧ t.index.toNat = nnn.toNat ∧ t = { s with index := t.index } ∧
      SameMemory s t

/-! ### Arithmetic and logic (43_arithmetic_logic.md) -/

/-- R150: `7xkk` adds modulo 256 and leaves VF unless x = F. Spec decision D15. -/
def Obligations.AddByteWrapsWithoutCarry : Prop :=
  ∀ (x : Reg) (kk : Byte) (s : State),
    decode (0x7#4 ++ regBits x ++ kk) = .ok (.addByte x kk) ∧
    ∃ t, exec (.addByte x kk) s = .next t ∧ (t.reg x).toNat = ((s.reg x).toNat + kk.toNat) % 256 ∧
      SameRegsBut [x] s t ∧ OnlyRegs s t

/-- R151, R152, R153: the bitwise operations, bit by bit; VF is written only where x = F. Spec decision D14.
-/
def Obligations.LogicIsBitwiseAndKeepsVF : Prop :=
  ∀ (x y : Reg) (s : State),
    (decode (0x8#4 ++ regBits x ++ regBits y ++ 0x1#4) = .ok (.orReg x y) ∧
      ∃ t, exec (.orReg x y) s = .next t ∧
        (∀ k, (t.reg x).getLsbD k = ((s.reg x).getLsbD k || (s.reg y).getLsbD k)) ∧
        SameRegsBut [x] s t ∧ OnlyRegs s t) ∧
    (decode (0x8#4 ++ regBits x ++ regBits y ++ 0x2#4) = .ok (.andReg x y) ∧
      ∃ t, exec (.andReg x y) s = .next t ∧
        (∀ k, (t.reg x).getLsbD k = ((s.reg x).getLsbD k && (s.reg y).getLsbD k)) ∧
        SameRegsBut [x] s t ∧ OnlyRegs s t) ∧
    (decode (0x8#4 ++ regBits x ++ regBits y ++ 0x3#4) = .ok (.xorReg x y) ∧
      ∃ t, exec (.xorReg x y) s = .next t ∧
        (∀ k, (t.reg x).getLsbD k = ((s.reg x).getLsbD k ^^ (s.reg y).getLsbD k)) ∧
        SameRegsBut [x] s t ∧ OnlyRegs s t)

/-- R154: `8xy4` gives the sum modulo 256 and, last, the carry in VF, which wins where x = F. Spec decision
D16. -/
def Obligations.AddRegistersSetsCarry : Prop :=
  ∀ (x y : Reg) (s : State),
    decode (0x8#4 ++ regBits x ++ regBits y ++ 0x4#4) = .ok (.addReg x y) ∧
    ∃ t, exec (.addReg x y) s = .next t ∧
      (x ≠ 15 → (t.reg x).toNat = ((s.reg x).toNat + (s.reg y).toNat) % 256) ∧
      t.reg 15 = (if (s.reg x).toNat + (s.reg y).toNat > 255 then 1 else 0) ∧
      SameRegsBut [x, 15] s t ∧ OnlyRegs s t

/-- R155, R157: the two subtractions modulo 256 and, last, not-borrow in VF, 1 for equal operands. Spec
decision D16. -/
def Obligations.SubtractionsSetNotBorrow : Prop :=
  ∀ (x y : Reg) (s : State),
    (decode (0x8#4 ++ regBits x ++ regBits y ++ 0x5#4) = .ok (.sub x y) ∧
      ∃ t, exec (.sub x y) s = .next t ∧
        (x ≠ 15 → (t.reg x).toNat = (256 + (s.reg x).toNat - (s.reg y).toNat) % 256) ∧
        t.reg 15 = (if (s.reg x).toNat ≥ (s.reg y).toNat then 1 else 0) ∧
        SameRegsBut [x, 15] s t ∧ OnlyRegs s t) ∧
    (decode (0x8#4 ++ regBits x ++ regBits y ++ 0x7#4) = .ok (.subn x y) ∧
      ∃ t, exec (.subn x y) s = .next t ∧
        (x ≠ 15 → (t.reg x).toNat = (256 + (s.reg y).toNat - (s.reg x).toNat) % 256) ∧
        t.reg 15 = (if (s.reg y).toNat ≥ (s.reg x).toNat then 1 else 0) ∧
        SameRegsBut [x, 15] s t ∧ OnlyRegs s t)

/-- R156, R158, R162: Vx is shifted by one with zero fill and the bit shifted out goes to VF, last; Vy is not
read, whatever y. Spec decisions D13 and D16. -/
def Obligations.ShiftsMoveOneBitIntoVF : Prop :=
  ∀ (x y : Reg) (s : State),
    (decode (0x8#4 ++ regBits x ++ regBits y ++ 0x6#4) = .ok (.shr x y) ∧
      ∃ t, exec (.shr x y) s = .next t ∧ (x ≠ 15 → (t.reg x).toNat = (s.reg x).toNat / 2) ∧
        (t.reg 15).toNat = (s.reg x).toNat % 2 ∧ SameRegsBut [x, 15] s t ∧ OnlyRegs s t) ∧
    (decode (0x8#4 ++ regBits x ++ regBits y ++ 0xE#4) = .ok (.shl x y) ∧
      ∃ t, exec (.shl x y) s = .next t ∧ (x ≠ 15 → (t.reg x).toNat = 2 * (s.reg x).toNat % 256) ∧
        (t.reg 15).toNat = (s.reg x).toNat / 128 ∧ SameRegsBut [x, 15] s t ∧ OnlyRegs s t)

/-! ### Random (44_random.md) -/

/-- R170: `Cxkk` writes the draw masked by kk, whatever the draw is, and nothing else. The draw is the model's
free value (log entry 4): the statement is about every value of it. Spec decision D21. -/
def Obligations.RandomIsMaskedDraw : Prop :=
  ∀ (x : Reg) (kk r : Byte) (s : State),
    decode (0xC#4 ++ regBits x ++ kk) = .ok (.rnd x kk) ∧
    ∃ t, exec (.rnd x kk) { s with draw := r } = .next t ∧
      (∀ k, (t.reg x).getLsbD k = (r.getLsbD k && kk.getLsbD k)) ∧ t.reg x &&& ~~~kk = 0 ∧
      SameRegsBut [x] s t ∧ OnlyRegs { s with draw := r } t

/-! ### Skips (41_skips.md, 46_keypad.md) -/

/-- R130, R131: the skips on a byte change PC only, by 2 more where the condition holds. -/
def Obligations.ByteSkipsMovePc : Prop :=
  ∀ (x : Reg) (kk : Byte) (s : State),
    (decode (0x3#4 ++ regBits x ++ kk) = .ok (.seByte x kk) ∧
      exec (.seByte x kk) s = .next { s with pc := if (s.reg x).toNat = kk.toNat then s.pc + 2 else s.pc }) ∧
    (decode (0x4#4 ++ regBits x ++ kk) = .ok (.sneByte x kk) ∧
      exec (.sneByte x kk) s = .next { s with pc := if (s.reg x).toNat = kk.toNat then s.pc else s.pc + 2 })

/-- R132, R133: the skips on two registers change PC only; x = y always, or never, skips. -/
def Obligations.RegisterSkipsMovePc : Prop :=
  ∀ (x y : Reg) (s : State),
    (decode (0x5#4 ++ regBits x ++ regBits y ++ 0x0#4) = .ok (.seReg x y) ∧
      exec (.seReg x y) s =
        .next { s with pc := if (s.reg x).toNat = (s.reg y).toNat then s.pc + 2 else s.pc }) ∧
    (decode (0x9#4 ++ regBits x ++ regBits y ++ 0x0#4) = .ok (.sneReg x y) ∧
      exec (.sneReg x y) s =
        .next { s with pc := if (s.reg x).toNat = (s.reg y).toNat then s.pc else s.pc + 2 }) ∧
    exec (.seReg x x) s = .next { s with pc := s.pc + 2 } ∧ exec (.sneReg x x) s = .next s

/-- R190, R191, R195: the key skips sample the slot of Vx's low nibble and change PC only. Spec decision D19.
-/
def Obligations.KeySkipsSampleLowNibble : Prop :=
  ∀ (x : Reg) (k : KeyCode) (s : State),
    decode (0xE#4 ++ regBits x ++ 0x9E#8) = .ok (.skp x) ∧ decode (0xE#4 ++ regBits x ++ 0xA1#8) = .ok (.sknp x) ∧
    ((s.reg x).toNat % 16 = k.val →
      exec (.skp x) s = .next { s with pc := if s.key.get k = true then s.pc + 2 else s.pc } ∧
      exec (.sknp x) s = .next { s with pc := if s.key.get k = true then s.pc else s.pc + 2 })

/-! ### Control flow (40_control_flow.md) -/

/-- R121, R123: the jumps change PC only; the sum of `Bnnn` keeps 16 bits. -/
def Obligations.JumpsSetPc : Prop :=
  ∀ (nnn : BitVec 12) (s : State),
    (decode (0x1#4 ++ nnn) = .ok (.jp nnn) ∧
      ∃ t, exec (.jp nnn) s = .next t ∧ t.pc.toNat = nnn.toNat ∧ t = { s with pc := t.pc }) ∧
    (decode (0xB#4 ++ nnn) = .ok (.jpV0 nnn) ∧
      ∃ t, exec (.jpV0 nnn) s = .next t ∧ t.pc.toNat = (nnn.toNat + (s.reg 0).toNat) % 65536 ∧
        t = { s with pc := t.pc })

/-- R122, R241: `2nnn` pushes the address after the call and jumps; with sixteen entries it pushes and jumps
nowhere and the machine halts with StackOverflow. Spec decision D7. -/
def Obligations.CallPushesOrOverflows : Prop :=
  ∀ (nnn : BitVec 12) (a : Word) (s : State), s.pc = a + 2 →
    decode (0x2#4 ++ nnn) = .ok (.call nnn) ∧
    (s.stack.length ≠ 16 → ∃ t, exec (.call nnn) s = .next t ∧ t.pc.toNat = nnn.toNat ∧
      t = { s with pc := t.pc, stack := s.stack ++ [a + 2] }) ∧
    (s.stack.length = 16 → exec (.call nnn) s = .next { s with
      pc := a + 2
      runState := .halted ⟨.stackOverflow, a, 0x2#4 ++ nnn⟩
      effects := s.effects ++ [.fault ⟨.stackOverflow, a, 0x2#4 ++ nnn⟩] })

/-- R120, R242: `00EE` pops all 16 bits into PC; with an empty stack nothing is popped and the machine halts
with StackUnderflow. Spec decision D7. -/
def Obligations.ReturnPopsOrUnderflows : Prop :=
  decode 0x00EE#16 = .ok .ret ∧
  (∀ (rest : List Word) (target : Word) (s : State), s.stack = rest ++ [target] →
    exec .ret s = .next { s with pc := target, stack := rest }) ∧
  (∀ (a : Word) (s : State), s.stack = [] → s.pc = a + 2 → exec .ret s = .next { s with
      runState := .halted ⟨.stackUnderflow, a, 0x00EE#16⟩
      effects := s.effects ++ [.fault ⟨.stackUnderflow, a, 0x00EE#16⟩] })

/-! ### Index register and memory (45_index_and_memory.md) -/

/-- R175: `Fx1E` adds modulo 65536 and writes no flag. Spec decisions D5 and D15. -/
def Obligations.AddIndexWrapsAt16Bits : Prop :=
  ∀ (x : Reg) (s : State),
    decode (0xF#4 ++ regBits x ++ 0x1E#8) = .ok (.addIVx x) ∧
    ∃ t, exec (.addIVx x) s = .next t ∧ t.index.toNat = (s.index.toNat + (s.reg x).toNat) % 65536 ∧
      t = { s with index := t.index }

/-- R176: `Fx29` points I at the glyph of Vx's low nibble, FONT_BASE being 0, and touches no memory. Spec
decision D18. -/
def Obligations.FontPointsAtGlyph : Prop :=
  ∀ (x : Reg) (s : State),
    decode (0xF#4 ++ regBits x ++ 0x29#8) = .ok (.ldFVx x) ∧
    ∃ t, exec (.ldFVx x) s = .next t ∧ t.index.toNat = 0x000 + 5 * ((s.reg x).toNat % 16) ∧
      t = { s with index := t.index }

/-- R177: `Fx33` stores hundreds, tens and ones at I, I + 1 and I + 2 (each masked), and changes nothing else.
The canonical form of memory is the model's premise for reading back what was stored (log entry 11). Spec
decision D4. -/
def Obligations.DigitsStoredAtI : Prop :=
  ∀ (x : Reg) (s : State),
    decode (0xF#4 ++ regBits x ++ 0x33#8) = .ok (.ldBVx x) ∧
    ∃ t, exec (.ldBVx x) s = .next t ∧ OnlyMemory s t ∧ (s.mem.wf →
      (t.memRead (s.index.toNat + 0)).toNat = (s.reg x).toNat / 100 ∧
      (t.memRead (s.index.toNat + 1)).toNat = (s.reg x).toNat / 10 % 10 ∧
      (t.memRead (s.index.toNat + 2)).toNat = (s.reg x).toNat % 10 ∧
      SameMemoryBut [s.effAddr 0, s.effAddr 1, s.effAddr 2] s t)

/-- R178: `Fx55` stores V0 to Vx, inclusive, from I up, and leaves I and everything else. Spec decisions D4
and D17. The canonical form of memory is the model's premise (log entry 11). -/
def Obligations.SaveStoresV0ToVx : Prop :=
  ∀ (x : Reg) (s : State),
    decode (0xF#4 ++ regBits x ++ 0x55#8) = .ok (.ldMemVx x) ∧
    ∃ t, exec (.ldMemVx x) s = .next t ∧ OnlyMemory s t ∧ (s.mem.wf →
      (∀ r : Reg, r ≤ x → t.memRead (s.index.toNat + r.val) = s.reg r) ∧
      SameMemoryBut ((List.range (x.val + 1)).map s.effAddr) s t)

/-- R179: `Fx65` loads V0 to Vx, inclusive, from I up, and leaves I, memory and the registers above Vx. Spec
decisions D4 and D17. -/
def Obligations.RestoreLoadsV0ToVx : Prop :=
  ∀ (x : Reg) (s : State),
    decode (0xF#4 ++ regBits x ++ 0x65#8) = .ok (.ldVxMem x) ∧
    ∃ t, exec (.ldVxMem x) s = .next t ∧ OnlyRegs s t ∧
      ∀ r : Reg, t.reg r = if r ≤ x then s.memRead (s.index.toNat + r.val) else s.reg r

/-- A block saved and then restored comes back, whatever the registers held in between (45_index_and_memory.md
R178, R179). The canonical form of memory is the model's premise (log entry 11). -/
def Obligations.SavedBlockRestores : Prop :=
  ∀ (x : Reg) (s : State) (between : Vector Byte 16), s.mem.wf →
    ∃ t u, exec (.ldMemVx x) s = .next t ∧ exec (.ldVxMem x) { t with v := between } = .next u ∧
      u.mem = t.mem ∧ ∀ r : Reg, u.reg r = if r ≤ x then s.reg r else between.get r

/-! ### Keypad and timers (46_keypad.md, 47_timers.md) -/

/-- R192: `Fx0A` enters the wait and changes nothing else, whichever keys are held; in the wait CpuSteps
change nothing, and no event but a KeyDown or a load ends it, moves PC or writes a register. Spec decision
D20. -/
def Obligations.KeyWaitSuspends : Prop :=
  ∀ (x : Reg) (s : State),
    decode (0xF#4 ++ regBits x ++ 0x0A#8) = .ok (.ldVxK x) ∧
    exec (.ldVxK x) s = .next { s with runState := .waitingForKey x } ∧
    (∀ r : Byte, State.deliver { s with runState := .waitingForKey x } (.cpuStep r) =
      .next { s with runState := .waitingForKey x }) ∧
    ∀ e : Event, (∀ k, e ≠ .keyDown k) → (∀ bytes, e ≠ .loadProgram bytes) → e ≠ .loadFailure →
      ∃ t, State.deliver { s with runState := .waitingForKey x } e = .next t ∧
        t.runState = .waitingForKey x ∧ t.pc = s.pc ∧ t.v = s.v

/-- R205: `Fx07` reads the delay timer and changes only Vx. -/
def Obligations.TimerReadIntoVx : Prop :=
  ∀ (x : Reg) (s : State),
    decode (0xF#4 ++ regBits x ++ 0x07#8) = .ok (.ldVxDt x) ∧
    ∃ t, exec (.ldVxDt x) s = .next t ∧ t.reg x = s.dt.value ∧ SameRegsBut [x] s t ∧ OnlyRegs s t

/-- `Fx15` (R206) and `Fx18` (R207) write their own timer; a non-zero value starts it, zero leaves its enable,
and no effect is emitted. The ST half is R207, which the spec marks as its own inference by analogy to the
delay timer (47_timers.md R215), so the statement is derived. -/
def Obligations.TimerWritesStartNonZero : Prop :=
  ∀ (x : Reg) (s : State),
    (decode (0xF#4 ++ regBits x ++ 0x15#8) = .ok (.ldDtVx x) ∧
      exec (.ldDtVx x) s = .next { s with
        dt := ⟨s.reg x, if (s.reg x).toNat ≠ 0 then true else s.dt.running⟩ }) ∧
    (decode (0xF#4 ++ regBits x ++ 0x18#8) = .ok (.ldStVx x) ∧
      exec (.ldStVx x) s = .next { s with
        st := ⟨s.reg x, if (s.reg x).toNat ≠ 0 then true else s.st.running⟩ })

/-! ### Display (48_display.md) -/

/-- R225: `00E0` turns every cell off, emits DisplayChanged and changes nothing else. -/
def Obligations.ClearTurnsEveryCellOff : Prop :=
  ∀ s : State,
    decode 0x00E0#16 = .ok .cls ∧
    ∃ t, exec .cls s = .next t ∧ (∀ col row, t.getCell col row = false) ∧
      t = { s with disp := t.disp, effects := s.effects ++ [.displayChanged] }

/-- R226 to R229: after `Dxyn` a cell is inverted exactly where the sprite has a 1 bit, VF is 1 exactly when
some cell went from on to off and 0 otherwise, one DisplayChanged is emitted, and nothing else changes. Spec
decisions D16 and D22. -/
def Obligations.DrawXorsSpriteAndDetectsCollision : Prop :=
  ∀ (x y : Reg) (n : BitVec 4) (s : State),
    decode (0xD#4 ++ regBits x ++ regBits y ++ n) = .ok (.drw x y n) ∧
    ∃ t, exec (.drw x y n) s = .next t ∧
      (∀ c r, c < 64 → r < 32 →
        (t.getCell c r = true ↔ ¬ (s.getCell c r = true ↔
          spriteLights s (s.reg x).toNat (s.reg y).toNat n.toNat c r))) ∧
      (t.reg 15 = 1 ↔ ∃ c r, s.getCell c r = true ∧ t.getCell c r = false) ∧
      (t.reg 15 = 1 ∨ t.reg 15 = 0) ∧
      SameRegsBut [15] s t ∧ SameMemory s t ∧
      t = { s with v := t.v, disp := t.disp, effects := s.effects ++ [.displayChanged] }

/-- The identical draw again restores the grid (the first half of 48_display.md R230 (a)); it collides
exactly when some pixel of the sprite lay on a cell that was off before the first draw, which is what R226
and R228 give for the second draw (log entry 10; R230 (b) is the case of a clear grid). -/
def Obligations.DrawTwiceRestoresGrid : Prop :=
  ∀ (x y : Reg) (n : BitVec 4) (s : State), x ≠ 15 → y ≠ 15 →
    ∃ t u, exec (.drw x y n) s = .next t ∧ exec (.drw x y n) t = .next u ∧ u.disp = s.disp ∧
      (u.reg 15 = 1 ↔ ∃ c r, c < 64 ∧ r < 32 ∧
        spriteLights s (s.reg x).toNat (s.reg y).toNat n.toNat c r ∧ s.getCell c r = false)

/-- The display port gives the grid's cell inside the grid and false outside (R231); SoundActive is that ST is
running above 0, which under the invariant is that it is above 0. The SoundActive clauses are R214, which the
spec marks as its own inference (47_timers.md R215), so the statement is derived. -/
def Obligations.PortsReadState : Prop :=
  ∀ s : State,
    (∀ (col row : Nat) (hc : col < 64) (hr : row < 32),
      s.getCell col row = (s.disp.get ⟨col, hc⟩).get ⟨row, hr⟩) ∧
    (∀ col row : Nat, 64 ≤ col ∨ 32 ≤ row → s.getCell col row = false) ∧
    (s.soundActive = true ↔ s.st.running = true ∧ 0 < s.st.value.toNat) ∧
    (s.Inv → (s.soundActive = true ↔ 0 < s.st.value.toNat))

/-! ### Memory (20_memory.md) -/

/-- A write sets the byte of the one cell its masked address selects; a read gives the byte in its cell
(20_memory.md R61 to R63; spec decision D4). That memory has its canonical form, the premise, and that a write
keeps it, the last clause, are the model's choice (log entry 11), so the statement is derived. -/
def Obligations.WriteThenReadIsMasked : Prop :=
  ∀ (s : State) (a b : Nat) (u : Byte), s.mem.wf →
    (s.memWrite a u).memRead b = (if b % 4096 = a % 4096 then u else s.memRead b) ∧
    s.memRead b = s.memRead (b % 4096) ∧ OnlyMemory s (s.memWrite a u) ∧ (s.memWrite a u).mem.wf

/-- R64: the fetch is big-endian, and each of its two byte addresses is masked by itself. -/
def Obligations.FetchIsBigEndian : Prop :=
  ∀ s : State, s.fetchWord.toNat =
    (s.memRead (s.pc.toNat % 4096)).toNat * 256 + (s.memRead ((s.pc.toNat + 1) % 4096)).toNat

/-- The loader copies the bytes from the start address up and leaves every other cell (20_memory.md R76). That
memory has its canonical form, the premise, and that the load keeps it, the first clause, are the model's
choice (log entry 11). -/
def Obligations.LoaderCopiesBytes : Prop :=
  ∀ (m : Memory) (bytes : List Byte) (start : Nat), m.wf → bytes.length ≤ 3584 →
    (m.load bytes start).wf ∧
    (∀ (i : Nat) (h : i < bytes.length), (m.load bytes start).read (start + i) = bytes[i]) ∧
    ∀ a, (∀ i, i < bytes.length → a % 4096 ≠ (start + i) % 4096) → (m.load bytes start).read a = m.read a

/-- R73: what `Fx55` has stored at PC is what the very next fetch reads. The canonical form of memory is the
model's premise (log entry 11). -/
def Obligations.StoreIsSeenByNextFetch : Prop :=
  ∀ (x : Reg) (k : Nat) (s : State), s.mem.wf → k + 1 ≤ x.val → s.pc.toNat = s.index.toNat + k →
    ∃ t, exec (.ldMemVx x) s = .next t ∧
      t.fetchWord.toNat = (s.reg (regOfNat k)).toNat * 256 + (s.reg (regOfNat (k + 1))).toNat

/-- R68: of the instructions only `Fx33` and `Fx55`, and of the events that execute no instruction only
LoadProgram, change a byte of memory. -/
def Obligations.OnlyStoresWriteMemory : Prop :=
  (∀ (i : Instr) (s t : State), exec i s = .next t → (∀ x, i ≠ .ldBVx x) → (∀ x, i ≠ .ldMemVx x) →
    SameMemory s t) ∧
  ∀ (e : Event) (s t : State), s.deliver e = .next t →
    (∀ r i, e = .cpuStep r → s.runState = .running → decode s.fetchWord ≠ .ok i) →
    (∀ bytes, e ≠ .loadProgram bytes) → SameMemory s t

/-! ### Encoding (30_encoding.md) -/

/-- Encoding an instruction and decoding its word gives it back, with every operand at every value; and
decoding its bytes leaves the bytes after them. -/
def Obligations.DecodeOfEncode : Prop :=
  ∀ (i : Instr) (rest : List Byte),
    decode (encode i) = .ok i ∧ decodeBytes (encodeBytes i ++ rest) = .ok (i, rest)

/-- Every word that decodes is the encoding of the instruction it decodes to: no bit of it is dropped. -/
def Obligations.EncodeOfDecode : Prop :=
  ∀ (w : Word) (i : Instr), decode w = .ok i → encode i = w

/-- R93, R103: a word decodes exactly when a row of the opcode table matches it, and then its instruction's
row is the only one that does. That no word matches two rows is R103, which the spec itself derives from its
table R93. -/
def Obligations.DecodeFollowsTable : Prop :=
  ∀ w : Word,
    ((∃ i, decode w = .ok i) ↔ ∃ row ∈ opcodeTable, w &&& row.mask = row.pattern) ∧
    ∀ i, decode w = .ok i → ∀ row ∈ opcodeTable, w &&& row.mask = row.pattern ↔ row = i.row

/-- The words R95 lists, and no others, are unknown (the counts of R95 are not stated). -/
def Obligations.UnknownWordsAreListed : Prop :=
  ∀ w : Word, (∃ e, decode w = .error e) ↔
    (opField w = 0 ∧ w ≠ 0x00E0#16 ∧ w ≠ 0x00EE#16) ∨
    (opField w = 5 ∧ nField w ≠ 0) ∨
    (opField w = 8 ∧ (nField w).toNat ∈ [0x8, 0x9, 0xA, 0xB, 0xC, 0xD, 0xF]) ∨
    (opField w = 9 ∧ nField w ≠ 0) ∨
    (opField w = 14 ∧ (kkField w).toNat ∉ [0x9E, 0xA1]) ∨
    (opField w = 15 ∧ (kkField w).toNat ∉ [0x07, 0x0A, 0x15, 0x18, 0x1E, 0x29, 0x33, 0x55, 0x65])

/-- Words written out from the spec's own examples decode to the instructions they stand for. -/
def Obligations.SampleWordsDecode : Prop :=
  decode 0x00E0#16 = .ok .cls ∧ decode 0x6005#16 = .ok (.ldByte 0 5) ∧ decode 0x6103#16 = .ok (.ldByte 1 3) ∧
  decode 0x8014#16 = .ok (.addReg 0 1) ∧ decode 0xD015#16 = .ok (.drw 0 1 5) ∧ decode 0xF30A#16 = .ok (.ldVxK 3) ∧
  decode 0x0000#16 = .error .unknownClass0

/-! ### The step (30_encoding.md R100 to R102) -/

/-- When the word at PC decodes to i, a step that delivers a CpuStep in Running is `exec i` with PC moved past
the word, the draw in place, and the effects of the event before gone. That a step delivers the head of
`script`, or a CpuStep with a draw of the free source where it is empty, and clears `effects`, is the model's
choice (log entries 1, 2, 4 and 5). -/
def Obligations.StepRunsDecodedInstruction : Prop :=
  ∀ (i : Instr) (s : State), s.runState = .running → decode s.fetchWord = .ok i →
    (∀ (r : Byte) (rest : List Event), s.script = .cpuStep r :: rest →
      step s = exec i { s with pc := s.pc + 2, draw := r, script := rest, effects := [] }) ∧
    (s.script = [] → step s = exec i { s with
      pc := s.pc + 2, draw := Config.randomDraw s.drawCount, drawCount := s.drawCount + 1, effects := [] })

/-- R243: a CpuStep in Running whose word is no instruction halts with UnknownOpcode and changes nothing else
but PC. Spec decisions D2 and D7. -/
def Obligations.UnknownOpcodeHalts : Prop :=
  ∀ (s : State) (r : Byte) (e : DecodeError), s.runState = .running → decode s.fetchWord = .error e →
    s.deliver (.cpuStep r) = .next { s with
      pc := s.pc + 2
      runState := .halted ⟨.unknownOpcode, s.pc, s.fetchWord⟩
      effects := s.effects ++ [.fault ⟨.unknownOpcode, s.pc, s.fetchWord⟩] }

/-- A CpuStep in any run-state but Running changes nothing, and so does the rest of a tick
(30_encoding.md R100 and R101). -/
def Obligations.CpuStepsDoNothingUnlessRunning : Prop :=
  ∀ (s : State) (draws : List Byte), s.runState ≠ .running → s.deliverAll (tickEvents draws) = .next s

/-- Every step answers a next state: every event handler is total and the interface's faults and refusals
never occur (00_scope.md R6). That the spec's own three faults are next states is log entry 8. -/
def Obligations.StepAlwaysAnswers : Prop :=
  ∀ s : State, ∃ t, step s = .next t

/-- The table of R24: how each instruction leaves PC. -/
def Obligations.PcOutcomesFollowTable : Prop :=
  ∀ (i : Instr) (s : State), ∃ t, exec i s = .next t ∧ t.pc = pcAfter i s

/-- The table of R21: the six flag instructions leave exactly 0 or 1 in VF, and no instruction that does not
load VF by name changes it. -/
def Obligations.OnlyFlagInstructionsWriteVF : Prop :=
  ∀ (i : Instr) (s : State), ∃ t, exec i s = .next t ∧
    (setsFlag i = true → t.reg 15 = 0 ∨ t.reg 15 = 1) ∧
    (setsFlag i = false → loadsReg 15 i = false → t.reg 15 = s.reg 15)

/-- Every general register but those an instruction loads, and VF where it sets the flag, is as before; no
instruction changes the keys or the inputs of the step (30_encoding.md R102). -/
def Obligations.RegistersOutsideDestinationKept : Prop :=
  ∀ (i : Instr) (s : State), ∃ t, exec i s = .next t ∧ t.key = s.key ∧ t.draw = s.draw ∧
    t.drawCount = s.drawCount ∧ t.script = s.script ∧
    ∀ r : Reg, loadsReg r i = false → (setsFlag i = true → r ≠ 15) → t.reg r = s.reg r

/-- Only `Fx15`, DtTick and a load change DT, and only `Fx18`, StTick and a load change ST (47_timers.md R212);
the tick events change nothing else but the sound's effect. -/
def Obligations.TimersAreIndependent : Prop :=
  (∀ (i : Instr) (s t : State), exec i s = .next t →
    ((∀ x, i ≠ .ldDtVx x) → t.dt = s.dt) ∧ ((∀ x, i ≠ .ldStVx x) → t.st = s.st)) ∧
  (∀ (e : Event) (s t : State), s.deliver e = .next t → (∀ bytes, e ≠ .loadProgram bytes) →
    (e ≠ .dtTick → (∀ r x, e = .cpuStep r → decode s.fetchWord ≠ .ok (.ldDtVx x)) → t.dt = s.dt) ∧
    (e ≠ .stTick → (∀ r x, e = .cpuStep r → decode s.fetchWord ≠ .ok (.ldStVx x)) → t.st = s.st)) ∧
  (∀ s t : State, s.deliver .dtTick = .next t → t = { s with dt := t.dt }) ∧
  (∀ s t : State, s.deliver .stTick = .next t → t = { s with st := t.st, effects := t.effects })

/-- R232: CLS and DRW emit one DisplayChanged each, and no other instruction, and no event that executes no
instruction, emits one. Spec decision D27. -/
def Obligations.DisplayChangedOnlyFromDisplay : Prop :=
  (∀ (i : Instr) (s : State), ∃ t new, exec i s = .next t ∧ t.effects = s.effects ++ new ∧
    ((i = .cls ∨ ∃ x y n, i = .drw x y n) → new = [.displayChanged]) ∧
    (i ≠ .cls → (∀ x y n, i ≠ .drw x y n) → .displayChanged ∉ new)) ∧
  ∀ (e : Event) (s : State),
    (∀ r i, e = .cpuStep r → s.runState = .running → decode s.fetchWord ≠ .ok i) →
    ∃ t new, s.deliver e = .next t ∧ t.effects = s.effects ++ new ∧ .displayChanged ∉ new

/-! ### Events (10_state.md R36, 46_keypad.md, 47_timers.md, 70_reset_and_hazards.md) -/

/-- R193, R194: KeyDown sets its slot and, in a wait, writes the code to the waiting register and resumes;
KeyUp clears its slot; nothing else changes. -/
def Obligations.KeyEventsSetSlots : Prop :=
  ∀ (k : KeyCode) (s : State),
    (∃ t, s.deliver (.keyDown k) = .next t ∧ t.key.get k = true ∧ (∀ j, j ≠ k → t.key.get j = s.key.get j) ∧
      (∀ x, s.runState = .waitingForKey x →
        (t.reg x).toNat = k.val ∧ SameRegsBut [x] s t ∧
        t = { s with v := t.v, key := t.key, runState := .running }) ∧
      ((∀ x, s.runState ≠ .waitingForKey x) → t = { s with key := t.key })) ∧
    (∃ t, s.deliver (.keyUp k) = .next t ∧ t.key.get k = false ∧ (∀ j, j ≠ k → t.key.get j = s.key.get j) ∧
      t = { s with key := t.key })

/-- A tick leaves a stopped unit alone; a running one goes one down, not below 0, and stops in the step that
leaves it at 0 (47_timers.md R209; spec decision D10). DtTick changes nothing else; StTick emits one PlaySound
exactly where the unit was running above 0, and changes nothing else. The PlaySound clause is R213, which the
spec marks as its own inference (R215; decision D12), so the statement is derived. -/
def Obligations.TimerStepCountsDown : Prop :=
  ∀ s : State, ∃ t u, s.deliver .dtTick = .next t ∧ s.deliver .stTick = .next u ∧
    (s.dt.running = false → t.dt = s.dt) ∧
    (s.dt.running = true →
      t.dt.value.toNat = s.dt.value.toNat - 1 ∧ (t.dt.running = true ↔ 1 < s.dt.value.toNat)) ∧
    (s.st.running = false → u.st = s.st) ∧
    (s.st.running = true →
      u.st.value.toNat = s.st.value.toNat - 1 ∧ (u.st.running = true ↔ 1 < s.st.value.toNat)) ∧
    t = { s with dt := t.dt } ∧
    u = { s with
      st := u.st
      effects := s.effects ++ (if s.st.running = true ∧ 0 < s.st.value.toNat then [.playSound] else []) }

/-- N DtTicks in a row after `Fx15` wrote N > 0 bring DT to 0 and stop it, not one earlier, and further ticks
leave it there; the same for ST with `Fx18` and StTick (47_timers.md R210, for ticks with no other event
between them; that other events leave the unit alone is `TimersAreIndependent`). The ST half is the spec's own
inference (R215). -/
def Obligations.CountdownTakesNTicks : Prop :=
  ∀ (x : Reg) (j : Nat) (s : State), 0 < (s.reg x).toNat →
    (∃ t u, exec (.ldDtVx x) s = .next t ∧ t.deliverAll (List.replicate j .dtTick) = .next u ∧
      u.dt.value.toNat = (s.reg x).toNat - j ∧ (u.dt.running = true ↔ j < (s.reg x).toNat)) ∧
    (∃ t u, exec (.ldStVx x) s = .next t ∧ t.deliverAll (List.replicate j .stTick) = .next u ∧
      u.st.value.toNat = (s.reg x).toNat - j ∧ (u.st.running = true ↔ j < (s.reg x).toNat))

/-- R213: an StTick emits one PlaySound exactly when the unit is running above 0 before its step, and steps
it; DtTick emits none; so a write of N > 0 sounds for exactly the next N StTicks in a row. The spec marks this
as its own inference (47_timers.md R215: the sound timer by analogy, decision D12). -/
def Obligations.SoundPlaysForNTicks : Prop :=
  (∀ s : State, ∃ t, s.deliver .stTick = .next t ∧
    t.st.value.toNat = (if s.st.running = true then s.st.value.toNat - 1 else s.st.value.toNat) ∧
    (t.st.running = true ↔ s.st.running = true ∧ 1 < s.st.value.toNat) ∧
    t.effects = s.effects ++ (if s.st.running = true ∧ 0 < s.st.value.toNat then [.playSound] else [])) ∧
  (∀ s : State, ∃ t, s.deliver .dtTick = .next t ∧ t.effects = s.effects) ∧
  ∀ (x : Reg) (j : Nat) (s : State), 0 < (s.reg x).toNat →
    ∃ t u, exec (.ldStVx x) s = .next t ∧ t.deliverAll (List.replicate j .stTick) = .next u ∧
      u.effects = s.effects ++ List.replicate (min j (s.reg x).toNat) .playSound

/-- R281: LoadProgram of at most 3584 bytes puts every piece of the spec's state to its reset value, the font
at 0x000, the program at 0x200 and 0 elsewhere, and runs, in whatever state it arrives. Spec decisions D18 and
D23. -/
def Obligations.LoadProgramResetsEverything : Prop :=
  ∀ (s : State) (bytes : List Byte), bytes.length ≤ 3584 →
    ∃ t, s.deliver (.loadProgram bytes) = .next t ∧
      (∀ r, t.reg r = 0) ∧ t.index = 0 ∧ t.pc = 0x0200 ∧ t.stack = [] ∧ t.dt = ⟨0, false⟩ ∧ t.st = ⟨0, false⟩ ∧
      (∀ c r, t.getCell c r = false) ∧ (∀ k, t.key.get k = false) ∧ t.runState = .running ∧
      t.effects = s.effects ∧
      (∀ (i : Nat) (h : i < bytes.length), t.memRead (0x200 + i) = bytes[i]) ∧
      ∀ a, a < 4096 → (a < 0x200 ∨ 0x200 + bytes.length ≤ a) →
        t.memRead a = if a < 80 then Config.font.getD a 0 else 0

/-- R282, R283: a load failure, or a program that does not fit, stops the engine, reports it and changes
nothing else. Spec decisions D24 and D25. -/
def Obligations.FailedLoadStops : Prop :=
  ∀ s : State,
    s.deliver .loadFailure = .next { s with runState := .stopped, effects := s.effects ++ [.loadFailed] } ∧
    ∀ bytes : List Byte, 3584 < bytes.length →
      s.deliver (.loadProgram bytes) =
        .next { s with runState := .stopped, effects := s.effects ++ [.loadFailed] }

/-- R280: the power-on state, read through the machine's own ports; steps and ticks do nothing in it, and key
events set and clear their slot. Spec decisions D18, D23 and D24. -/
def Obligations.PowerOnState : Prop :=
  (∀ r, State.reset.reg r = 0) ∧ State.reset.index = 0 ∧ State.reset.pc = 0x0200 ∧ State.reset.stack = [] ∧
  State.reset.dt = ⟨0, false⟩ ∧ State.reset.st = ⟨0, false⟩ ∧ (∀ c r, State.reset.getCell c r = false) ∧
  (∀ k, State.reset.key.get k = false) ∧ State.reset.runState = .stopped ∧
  (∀ a, a < 80 → State.reset.memRead a = Config.font.getD a 0) ∧
  (∀ a, 80 ≤ a → a < 4096 → State.reset.memRead a = 0) ∧
  (∀ r, State.reset.deliver (.cpuStep r) = .next State.reset) ∧
  State.reset.deliver .dtTick = .next State.reset ∧ State.reset.deliver .stTick = .next State.reset ∧
  ∀ k, ∃ t, State.reset.deliver (.keyDown k) = .next t ∧ t.key.get k = true ∧
    t.deliver (.keyUp k) = .next State.reset

/-- R249: no event but the CpuStep and the loads changes PC, the stack, I, the display or memory, so there
are no interrupts. -/
def Obligations.EventsNeverRedirectPc : Prop :=
  ∀ (e : Event) (s t : State), s.deliver e = .next t → (∀ r, e ≠ .cpuStep r) →
    (∀ bytes, e ≠ .loadProgram bytes) →
    t.pc = s.pc ∧ t.stack = s.stack ∧ t.index = s.index ∧ t.disp = s.disp ∧ SameMemory s t ∧
    (∀ r : Reg, s.runState ≠ .waitingForKey r → t.reg r = s.reg r)

/-! ### Run-state and faults (10_state.md R31, 60_exceptions.md) -/

/-- R247: a halted machine stays halted, with its record, through every event but a load. Spec decision D7. -/
def Obligations.HaltedIsSticky : Prop :=
  ∀ (s : State) (f : FaultRecord) (e : Event), s.runState = .halted f →
    ∃ t, s.deliver e = .next t ∧
      match e with
      | .cpuStep _ => t = s
      | .loadProgram bytes => t.runState = if bytes.length ≤ 3584 then .running else .stopped
      | .loadFailure => t.runState = .stopped
      | _ => t.runState = .halted f

/-- Faults are precise: a CpuStep that halts changes PC, the run-state and the effects it reports, and nothing
else; its record holds the fetch address, the word and the cause that holds of it (R246). Spec decision D7. -/
def Obligations.FaultsArePrecise : Prop :=
  ∀ (s t : State) (r : Byte) (f : FaultRecord), s.runState = .running → s.deliver (.cpuStep r) = .next t →
    t.runState = .halted f →
    f.addr = s.pc ∧ f.word = s.fetchWord ∧
    (f.cause = .stackOverflow → s.stack.length = 16 ∧ ∃ nnn, decode s.fetchWord = .ok (.call nnn)) ∧
    (f.cause = .stackUnderflow → s.stack = [] ∧ decode s.fetchWord = .ok .ret) ∧
    (f.cause = .unknownOpcode → ∃ e, decode s.fetchWord = .error e) ∧
    t = { s with pc := s.pc + 2, runState := .halted f, effects := s.effects ++ [.fault f], draw := t.draw }

/-- How each run-state is entered (the table of 10_state.md R31). -/
def Obligations.RunStateIsEnteredByTable : Prop :=
  ∀ (e : Event) (s t : State), s.deliver e = .next t → t.runState ≠ s.runState →
    (t.runState = .stopped → e = .loadFailure ∨ ∃ bytes, e = .loadProgram bytes ∧ 3584 < bytes.length) ∧
    (t.runState = .running → (∃ bytes, e = .loadProgram bytes ∧ bytes.length ≤ 3584) ∨
      ∃ k x, e = .keyDown k ∧ s.runState = .waitingForKey x) ∧
    (∀ x, t.runState = .waitingForKey x → s.runState = .running ∧ (∃ r, e = .cpuStep r) ∧
      decode s.fetchWord = .ok (.ldVxK x)) ∧
    (∀ f, t.runState = .halted f → s.runState = .running ∧ (∃ r, e = .cpuStep r) ∧ f.addr = s.pc)

/-! ### The invariant (10_state.md R39) -/

/-- Every step keeps the invariant: the stack depth, that a timer above 0 runs, the canonical form of memory,
and that a fault record agrees with the machine it stopped. The canonical form is the model's own (log entry
11); the rest is R39 (a) and (b) and R241 to R246. -/
def Obligations.EveryStepKeepsInvariant : Prop :=
  ∀ s t : State, s.Inv → step s = .next t → t.Inv

/-- The power-on state meets the invariant. -/
def Obligations.PowerOnMeetsInvariant : Prop := State.reset.Inv
end

