-- ==== Sys2Proof/Laws/State.lean ====
section
/-!
SUPPORT. For each named update of State, what every field is after it: true by unfolding the update once,
here, so that no later proof unfolds a record update.
-/

namespace Sys2Proof.Machine

variable (s : State)

/-! ### setReg -/

@[simp] theorem State.setReg_v (r : Reg) (u : Byte) : (s.setReg r u).v = s.v.set r.val u r.isLt := rfl
@[simp] theorem State.setReg_index (r : Reg) (u : Byte) : (s.setReg r u).index = s.index := rfl
@[simp] theorem State.setReg_pc (r : Reg) (u : Byte) : (s.setReg r u).pc = s.pc := rfl
@[simp] theorem State.setReg_stack (r : Reg) (u : Byte) : (s.setReg r u).stack = s.stack := rfl
@[simp] theorem State.setReg_dt (r : Reg) (u : Byte) : (s.setReg r u).dt = s.dt := rfl
@[simp] theorem State.setReg_st (r : Reg) (u : Byte) : (s.setReg r u).st = s.st := rfl
@[simp] theorem State.setReg_disp (r : Reg) (u : Byte) : (s.setReg r u).disp = s.disp := rfl
@[simp] theorem State.setReg_key (r : Reg) (u : Byte) : (s.setReg r u).key = s.key := rfl
@[simp] theorem State.setReg_runState (r : Reg) (u : Byte) : (s.setReg r u).runState = s.runState := rfl
@[simp] theorem State.setReg_mem (r : Reg) (u : Byte) : (s.setReg r u).mem = s.mem := rfl
@[simp] theorem State.setReg_draw (r : Reg) (u : Byte) : (s.setReg r u).draw = s.draw := rfl
@[simp] theorem State.setReg_drawCount (r : Reg) (u : Byte) : (s.setReg r u).drawCount = s.drawCount := rfl
@[simp] theorem State.setReg_script (r : Reg) (u : Byte) : (s.setReg r u).script = s.script := rfl
@[simp] theorem State.setReg_effects (r : Reg) (u : Byte) : (s.setReg r u).effects = s.effects := rfl

/-! ### setRegAndFlag -/

@[simp] theorem State.setRegAndFlag_v (x : Reg) (u : Byte) (b : Bool) : (s.setRegAndFlag x u b).v = (s.v.set x.val u x.isLt).set regF.val (flagByte b) regF.isLt := rfl
@[simp] theorem State.setRegAndFlag_index (x : Reg) (u : Byte) (b : Bool) : (s.setRegAndFlag x u b).index = s.index := rfl
@[simp] theorem State.setRegAndFlag_pc (x : Reg) (u : Byte) (b : Bool) : (s.setRegAndFlag x u b).pc = s.pc := rfl
@[simp] theorem State.setRegAndFlag_stack (x : Reg) (u : Byte) (b : Bool) : (s.setRegAndFlag x u b).stack = s.stack := rfl
@[simp] theorem State.setRegAndFlag_dt (x : Reg) (u : Byte) (b : Bool) : (s.setRegAndFlag x u b).dt = s.dt := rfl
@[simp] theorem State.setRegAndFlag_st (x : Reg) (u : Byte) (b : Bool) : (s.setRegAndFlag x u b).st = s.st := rfl
@[simp] theorem State.setRegAndFlag_disp (x : Reg) (u : Byte) (b : Bool) : (s.setRegAndFlag x u b).disp = s.disp := rfl
@[simp] theorem State.setRegAndFlag_key (x : Reg) (u : Byte) (b : Bool) : (s.setRegAndFlag x u b).key = s.key := rfl
@[simp] theorem State.setRegAndFlag_runState (x : Reg) (u : Byte) (b : Bool) : (s.setRegAndFlag x u b).runState = s.runState := rfl
@[simp] theorem State.setRegAndFlag_mem (x : Reg) (u : Byte) (b : Bool) : (s.setRegAndFlag x u b).mem = s.mem := rfl
@[simp] theorem State.setRegAndFlag_draw (x : Reg) (u : Byte) (b : Bool) : (s.setRegAndFlag x u b).draw = s.draw := rfl
@[simp] theorem State.setRegAndFlag_drawCount (x : Reg) (u : Byte) (b : Bool) : (s.setRegAndFlag x u b).drawCount = s.drawCount := rfl
@[simp] theorem State.setRegAndFlag_script (x : Reg) (u : Byte) (b : Bool) : (s.setRegAndFlag x u b).script = s.script := rfl
@[simp] theorem State.setRegAndFlag_effects (x : Reg) (u : Byte) (b : Bool) : (s.setRegAndFlag x u b).effects = s.effects := rfl

/-! ### memWrite -/

@[simp] theorem State.memWrite_v (a : Nat) (u : Byte) : (s.memWrite a u).v = s.v := rfl
@[simp] theorem State.memWrite_index (a : Nat) (u : Byte) : (s.memWrite a u).index = s.index := rfl
@[simp] theorem State.memWrite_pc (a : Nat) (u : Byte) : (s.memWrite a u).pc = s.pc := rfl
@[simp] theorem State.memWrite_stack (a : Nat) (u : Byte) : (s.memWrite a u).stack = s.stack := rfl
@[simp] theorem State.memWrite_dt (a : Nat) (u : Byte) : (s.memWrite a u).dt = s.dt := rfl
@[simp] theorem State.memWrite_st (a : Nat) (u : Byte) : (s.memWrite a u).st = s.st := rfl
@[simp] theorem State.memWrite_disp (a : Nat) (u : Byte) : (s.memWrite a u).disp = s.disp := rfl
@[simp] theorem State.memWrite_key (a : Nat) (u : Byte) : (s.memWrite a u).key = s.key := rfl
@[simp] theorem State.memWrite_runState (a : Nat) (u : Byte) : (s.memWrite a u).runState = s.runState := rfl
@[simp] theorem State.memWrite_mem (a : Nat) (u : Byte) : (s.memWrite a u).mem = s.mem.write a u := rfl
@[simp] theorem State.memWrite_draw (a : Nat) (u : Byte) : (s.memWrite a u).draw = s.draw := rfl
@[simp] theorem State.memWrite_drawCount (a : Nat) (u : Byte) : (s.memWrite a u).drawCount = s.drawCount := rfl
@[simp] theorem State.memWrite_script (a : Nat) (u : Byte) : (s.memWrite a u).script = s.script := rfl
@[simp] theorem State.memWrite_effects (a : Nat) (u : Byte) : (s.memWrite a u).effects = s.effects := rfl

/-! ### advancePc -/

@[simp] theorem State.advancePc_v : (s.advancePc).v = s.v := rfl
@[simp] theorem State.advancePc_index : (s.advancePc).index = s.index := rfl
@[simp] theorem State.advancePc_pc : (s.advancePc).pc = s.pc + 2 := rfl
@[simp] theorem State.advancePc_stack : (s.advancePc).stack = s.stack := rfl
@[simp] theorem State.advancePc_dt : (s.advancePc).dt = s.dt := rfl
@[simp] theorem State.advancePc_st : (s.advancePc).st = s.st := rfl
@[simp] theorem State.advancePc_disp : (s.advancePc).disp = s.disp := rfl
@[simp] theorem State.advancePc_key : (s.advancePc).key = s.key := rfl
@[simp] theorem State.advancePc_runState : (s.advancePc).runState = s.runState := rfl
@[simp] theorem State.advancePc_mem : (s.advancePc).mem = s.mem := rfl
@[simp] theorem State.advancePc_draw : (s.advancePc).draw = s.draw := rfl
@[simp] theorem State.advancePc_drawCount : (s.advancePc).drawCount = s.drawCount := rfl
@[simp] theorem State.advancePc_script : (s.advancePc).script = s.script := rfl
@[simp] theorem State.advancePc_effects : (s.advancePc).effects = s.effects := rfl

/-! ### emit -/

@[simp] theorem State.emit_v (e : Effect) : (s.emit e).v = s.v := rfl
@[simp] theorem State.emit_index (e : Effect) : (s.emit e).index = s.index := rfl
@[simp] theorem State.emit_pc (e : Effect) : (s.emit e).pc = s.pc := rfl
@[simp] theorem State.emit_stack (e : Effect) : (s.emit e).stack = s.stack := rfl
@[simp] theorem State.emit_dt (e : Effect) : (s.emit e).dt = s.dt := rfl
@[simp] theorem State.emit_st (e : Effect) : (s.emit e).st = s.st := rfl
@[simp] theorem State.emit_disp (e : Effect) : (s.emit e).disp = s.disp := rfl
@[simp] theorem State.emit_key (e : Effect) : (s.emit e).key = s.key := rfl
@[simp] theorem State.emit_runState (e : Effect) : (s.emit e).runState = s.runState := rfl
@[simp] theorem State.emit_mem (e : Effect) : (s.emit e).mem = s.mem := rfl
@[simp] theorem State.emit_draw (e : Effect) : (s.emit e).draw = s.draw := rfl
@[simp] theorem State.emit_drawCount (e : Effect) : (s.emit e).drawCount = s.drawCount := rfl
@[simp] theorem State.emit_script (e : Effect) : (s.emit e).script = s.script := rfl
@[simp] theorem State.emit_effects (e : Effect) : (s.emit e).effects = s.effects ++ [e] := rfl

/-! ### raiseFault -/

@[simp] theorem State.raiseFault_v (c : FaultCause) (a w : Word) : (s.raiseFault c a w).v = s.v := rfl
@[simp] theorem State.raiseFault_index (c : FaultCause) (a w : Word) : (s.raiseFault c a w).index = s.index := rfl
@[simp] theorem State.raiseFault_pc (c : FaultCause) (a w : Word) : (s.raiseFault c a w).pc = s.pc := rfl
@[simp] theorem State.raiseFault_stack (c : FaultCause) (a w : Word) : (s.raiseFault c a w).stack = s.stack := rfl
@[simp] theorem State.raiseFault_dt (c : FaultCause) (a w : Word) : (s.raiseFault c a w).dt = s.dt := rfl
@[simp] theorem State.raiseFault_st (c : FaultCause) (a w : Word) : (s.raiseFault c a w).st = s.st := rfl
@[simp] theorem State.raiseFault_disp (c : FaultCause) (a w : Word) : (s.raiseFault c a w).disp = s.disp := rfl
@[simp] theorem State.raiseFault_key (c : FaultCause) (a w : Word) : (s.raiseFault c a w).key = s.key := rfl
@[simp] theorem State.raiseFault_runState (c : FaultCause) (a w : Word) : (s.raiseFault c a w).runState = .halted ⟨c, a, w⟩ := rfl
@[simp] theorem State.raiseFault_mem (c : FaultCause) (a w : Word) : (s.raiseFault c a w).mem = s.mem := rfl
@[simp] theorem State.raiseFault_draw (c : FaultCause) (a w : Word) : (s.raiseFault c a w).draw = s.draw := rfl
@[simp] theorem State.raiseFault_drawCount (c : FaultCause) (a w : Word) : (s.raiseFault c a w).drawCount = s.drawCount := rfl
@[simp] theorem State.raiseFault_script (c : FaultCause) (a w : Word) : (s.raiseFault c a w).script = s.script := rfl
@[simp] theorem State.raiseFault_effects (c : FaultCause) (a w : Word) : (s.raiseFault c a w).effects = s.effects ++ [.fault ⟨c, a, w⟩] := rfl

/-! ### setKey -/

@[simp] theorem State.setKey_v (k : KeyCode) (b : Bool) : (s.setKey k b).v = s.v := rfl
@[simp] theorem State.setKey_index (k : KeyCode) (b : Bool) : (s.setKey k b).index = s.index := rfl
@[simp] theorem State.setKey_pc (k : KeyCode) (b : Bool) : (s.setKey k b).pc = s.pc := rfl
@[simp] theorem State.setKey_stack (k : KeyCode) (b : Bool) : (s.setKey k b).stack = s.stack := rfl
@[simp] theorem State.setKey_dt (k : KeyCode) (b : Bool) : (s.setKey k b).dt = s.dt := rfl
@[simp] theorem State.setKey_st (k : KeyCode) (b : Bool) : (s.setKey k b).st = s.st := rfl
@[simp] theorem State.setKey_disp (k : KeyCode) (b : Bool) : (s.setKey k b).disp = s.disp := rfl
@[simp] theorem State.setKey_key (k : KeyCode) (b : Bool) : (s.setKey k b).key = s.key.set k.val b k.isLt := rfl
@[simp] theorem State.setKey_runState (k : KeyCode) (b : Bool) : (s.setKey k b).runState = s.runState := rfl
@[simp] theorem State.setKey_mem (k : KeyCode) (b : Bool) : (s.setKey k b).mem = s.mem := rfl
@[simp] theorem State.setKey_draw (k : KeyCode) (b : Bool) : (s.setKey k b).draw = s.draw := rfl
@[simp] theorem State.setKey_drawCount (k : KeyCode) (b : Bool) : (s.setKey k b).drawCount = s.drawCount := rfl
@[simp] theorem State.setKey_script (k : KeyCode) (b : Bool) : (s.setKey k b).script = s.script := rfl
@[simp] theorem State.setKey_effects (k : KeyCode) (b : Bool) : (s.setKey k b).effects = s.effects := rfl

/-! ### Reading back -/

/-- A register reads what was last written to it, and every other register is as before. -/
theorem State.reg_setReg (r q : Reg) (u : Byte) : (s.setReg r u).reg q = if q = r then u else s.reg q := by
  by_cases h : q = r
  · subst h; simp [State.reg, State.setReg, Vector.get_eq_getElem]
  · have : (r : Nat) ≠ q := fun e => h (Fin.ext e.symm)
    simp [State.reg, State.setReg, Vector.get_eq_getElem, h, Vector.getElem_set_ne, this]

/-- After result and flag are written VF holds the flag, Vx the result unless x = F, and every other
register is as before. -/
theorem State.reg_setRegAndFlag (x q : Reg) (u : Byte) (b : Bool) :
    (s.setRegAndFlag x u b).reg q = if q = regF then flagByte b else if q = x then u else s.reg q := by
  simp only [State.setRegAndFlag, State.reg_setReg]

/-- A key slot reads what was last written to it, and every other slot is as before. -/
theorem State.keyPressed_setKey (k j : KeyCode) (b : Bool) :
    (s.setKey k b).keyPressed j = if j = k then b else s.keyPressed j := by
  by_cases h : j = k
  · subst h; simp [State.keyPressed, State.setKey, Vector.get_eq_getElem]
  · have : (k : Nat) ≠ j := fun e => h (Fin.ext e.symm)
    simp [State.keyPressed, State.setKey, Vector.get_eq_getElem, h, Vector.getElem_set_ne, this]

@[simp] theorem State.memRead_setReg (r : Reg) (u : Byte) (a : Nat) : (s.setReg r u).memRead a = s.memRead a := rfl
@[simp] theorem State.reg_memWrite (a : Nat) (u : Byte) (r : Reg) : (s.memWrite a u).reg r = s.reg r := rfl
@[simp] theorem State.effAddr_memWrite (a : Nat) (u : Byte) (k : Nat) : (s.memWrite a u).effAddr k = s.effAddr k := rfl
@[simp] theorem State.effAddr_setReg (r : Reg) (u : Byte) (k : Nat) : (s.setReg r u).effAddr k = s.effAddr k := rfl

/-- Only registers are written by a register write. -/
theorem State.onlyRegs_setReg (r : Reg) (u : Byte) : OnlyRegs s (s.setReg r u) := ⟨rfl, fun _ => rfl⟩

/-- Only registers are written by a result with its flag. -/
theorem State.onlyRegs_setRegAndFlag (x : Reg) (u : Byte) (b : Bool) : OnlyRegs s (s.setRegAndFlag x u b) :=
  ⟨rfl, fun _ => rfl⟩

end Sys2Proof.Machine
end

