-- ==== Sys2Proof/Laws/Memory.lean ====
section
/-!
SUPPORT. What memory is: a read of the cell last written gives the byte written, every other cell is as
before, and every operation keeps the canonical form (20_memory.md R61, R62, R76).
-/

namespace Sys2Proof.Machine

/-- The cell an address selects is a cell of the machine. -/
theorem cellOf_lt (a : Nat) : cellOf a < Config.memSize := Nat.mod_lt _ (by decide)

/-- A cell below every listed one reads as unlisted. -/
theorem Memory.cell_of_below {m : Memory} {a : Nat} (h : ∀ c ∈ m, a < c.1) : m.cell a = Memory.unlisted a := by
  induction m with
  | nil => rfl
  | cons c m ih =>
    have hc := h c (List.mem_cons_self ..)
    obtain ⟨b, u⟩ := c
    simp only [Memory.cell]
    rw [if_neg (by simp at hc; omega)]
    exact ih fun d hd => h d (List.mem_cons_of_mem _ hd)

/-- Reading after `put`: the cell written gives the byte, every other cell is as before. -/
theorem Memory.cell_put {m : Memory} (hs : m.Pairwise (fun c d => c.1 < d.1)) (a b : Nat) (u : Byte) :
    (m.put a u).cell b = if b = a then u else m.cell b := by
  induction m with
  | nil =>
    by_cases hu : u = Memory.unlisted a
    · by_cases hb : b = a
      · simp [Memory.put, Memory.cell, hu, hb]
      · simp [Memory.put, Memory.cell, hu, hb]
    · simp [Memory.put, Memory.cell, hu]
  | cons c m ih =>
    obtain ⟨d, w⟩ := c
    obtain ⟨hd, hm⟩ := List.pairwise_cons.1 hs
    have hbelow : ∀ e, e ≤ d → Memory.cell m e = Memory.unlisted e := fun e he =>
      Memory.cell_of_below fun c hc => Nat.lt_of_le_of_lt he (hd c hc)
    simp only [Memory.put]
    rcases Nat.lt_trichotomy a d with h | h | h
    · rw [if_pos h]
      by_cases hu : u = Memory.unlisted a
      · by_cases hb : b = a
        · subst hb
          simp [hu, Memory.cell, Nat.ne_of_lt h, hbelow b (Nat.le_of_lt h)]
        · simp [hu, hb]
      · simp [hu, Memory.cell]
    · subst h
      rw [if_neg (Nat.lt_irrefl _), if_pos rfl]
      by_cases hu : u = Memory.unlisted a
      · by_cases hb : b = a
        · subst hb; simp [hu, hbelow b (Nat.le_refl _)]
        · simp [hu, hb, Memory.cell]
      · by_cases hb : b = a
        · simp [hu, hb, Memory.cell]
        · simp [hu, hb, Memory.cell]
    · rw [if_neg (by omega), if_neg (by omega)]
      by_cases hb : b = d
      · subst hb; simp [Memory.cell, Nat.ne_of_lt h]
      · simp [Memory.cell, hb, ih hm]

/-- What `put` may list: an old entry, or the new one where it differs from the unlisted byte. -/
theorem Memory.mem_put {m : Memory} {a : Nat} {u : Byte} {c : Host.Cell} (h : c ∈ m.put a u) :
    c ∈ m ∨ (c = (a, u) ∧ u ≠ Memory.unlisted a) := by
  induction m with
  | nil =>
    simp only [Memory.put] at h
    split at h <;> simp_all
  | cons d m ih =>
    obtain ⟨b, w⟩ := d
    simp only [Memory.put] at h
    split at h
    · split at h
      · exact .inl h
      · rcases List.mem_cons.1 h with h | h
        · exact .inr ⟨h, ‹_›⟩
        · exact .inl h
    · split at h
      · split at h
        · exact .inl (List.mem_cons_of_mem _ h)
        · rcases List.mem_cons.1 h with h | h
          · exact .inr ⟨h, ‹_›⟩
          · exact .inl (List.mem_cons_of_mem _ h)
      · rcases List.mem_cons.1 h with h | h
        · exact .inl (h ▸ List.mem_cons_self ..)
        · exact (ih h).imp (List.mem_cons_of_mem _) id

/-- `put` keeps the addresses strictly rising. -/
theorem Memory.pairwise_put {m : Memory} (hs : m.Pairwise (fun c d => c.1 < d.1)) (a : Nat) (u : Byte) :
    (m.put a u).Pairwise (fun c d => c.1 < d.1) := by
  induction m with
  | nil =>
    simp only [Memory.put]
    split <;> simp
  | cons d m ih =>
    obtain ⟨b, w⟩ := d
    obtain ⟨hb, hm⟩ := List.pairwise_cons.1 hs
    simp only [Memory.put]
    split
    · rename_i hlt
      split
      · exact hs
      · refine List.pairwise_cons.2 ⟨fun c hc => ?_, hs⟩
        rcases List.mem_cons.1 hc with rfl | hc
        · exact hlt
        · exact Nat.lt_trans hlt (hb c hc)
    · split
      · rename_i heq
        split
        · exact hm
        · exact List.pairwise_cons.2 ⟨fun c hc => heq ▸ hb c hc, hm⟩
      · refine List.pairwise_cons.2 ⟨fun c hc => ?_, ih hm⟩
        rcases Memory.mem_put hc with hc | ⟨rfl, -⟩
        · exact hb c hc
        · simp only; omega

/-- A write keeps the canonical form. -/
theorem Memory.wf_write {m : Memory} (h : m.wf) (a : Nat) (u : Byte) : (m.write a u).wf :=
  ⟨Memory.pairwise_put h.1 _ _, fun c hc => by
    rcases Memory.mem_put hc with hc | ⟨rfl, hu⟩
    · exact h.2 c hc
    · exact ⟨cellOf_lt a, hu⟩⟩

/-- The loader keeps the canonical form. -/
theorem Memory.wf_load {m : Memory} (h : m.wf) (bytes : List Byte) (start : Nat) : (m.load bytes start).wf := by
  induction bytes generalizing m start with
  | nil => exact h
  | cons b rest ih => exact ih (Memory.wf_write h start b) (start + 1)

/-- The reset memory has the canonical form. -/
theorem Memory.wf_reset : Memory.wf State.reset.mem := by decide

/-- The read port after the write port: addresses that select the same cell read the byte written. -/
theorem Memory.read_write {m : Memory} (h : m.wf) (a b : Nat) (u : Byte) :
    (m.write a u).read b = if cellOf b = cellOf a then u else m.read b :=
  Memory.cell_put h.1 _ _ _

end Sys2Proof.Machine
end

