-- ==== Sys2Proof/Laws/Ops.lean ====
section
/-!
SUPPORT. One lemma per shared operation that says once what it can do: the stack, the skip, the halt, the
block transfers, the timers and the key capture.
-/

namespace Sys2Proof.Machine

variable (s : State)

/-! ### The stack (10_state.md R26) -/

/-- A push answers nothing exactly at depth 16, and otherwise appends. -/
theorem State.push_cases (u : Word) :
    (s.stack.length = 16 ∧ s.push u = none) ∨
    (s.stack.length ≠ 16 ∧ s.push u = some { s with stack := s.stack ++ [u] }) := by
  by_cases h : s.stack.length = 16
  · exact .inl ⟨h, if_pos h⟩
  · exact .inr ⟨h, if_neg h⟩

/-- A pop answers nothing exactly on an empty stack, and otherwise gives the newest entry. -/
theorem State.pop_cases :
    (s.stack = [] ∧ s.pop = none) ∨
    (∃ rest u, s.stack = rest ++ [u] ∧ s.pop = some (u, { s with stack := rest })) := by
  rcases List.eq_nil_or_concat s.stack with h | ⟨rest, u, h⟩
  · exact .inl ⟨h, by simp [State.pop, h]⟩
  · rw [List.concat_eq_append] at h
    exact .inr ⟨rest, u, h, by simp [State.pop, h]⟩

/-! ### Small operations -/

/-- A skip changes PC and nothing else. -/
theorem State.skipIf_eq (c : Bool) : s.skipIf c = { s with pc := if c then s.pc + 2 else s.pc } := by
  cases c <;> rfl

/-- A fault changes the run-state and reports itself, and nothing else. -/
theorem State.raiseFault_eq (c : FaultCause) (a w : Word) :
    s.raiseFault c a w =
      { s with runState := .halted ⟨c, a, w⟩, effects := s.effects ++ [.fault ⟨c, a, w⟩] } := rfl

/-- The address an instruction was fetched from, found back from the advanced PC. -/
theorem State.fetchAddr_of_pc {a : Word} (h : s.pc = a + 2) : s.fetchAddr = a := by
  simp [State.fetchAddr, h]

/-- A byte of memory survives or is overwritten by a store, by the cell its address selects. -/
theorem State.memRead_memWrite (h : s.mem.wf) (a b : Nat) (u : Byte) :
    (s.memWrite a u).memRead b = if cellOf b = cellOf a then u else s.memRead b :=
  Memory.read_write h a b u

/-! ### Block transfers (45_index_and_memory.md R178, R179) -/

/-- A block save changes memory only. -/
theorem State.saveRegs_onlyMemory (n : Nat) : s.saveRegs n = { s with mem := (s.saveRegs n).mem } := by
  induction n with
  | zero => rfl
  | succ n ih => simp only [State.saveRegs, State.memWrite]; rw [ih]

/-- A block save reads registers and I as they were. -/
theorem State.saveRegs_reads (n : Nat) :
    (∀ r, (s.saveRegs n).reg r = s.reg r) ∧ ∀ k, (s.saveRegs n).effAddr k = s.effAddr k := by
  rw [s.saveRegs_onlyMemory n]; exact ⟨fun _ => rfl, fun _ => rfl⟩

/-- A block save keeps the canonical form of memory. -/
theorem State.saveRegs_wf (h : s.mem.wf) (n : Nat) : (s.saveRegs n).mem.wf := by
  induction n with
  | zero => exact h
  | succ n ih => exact Memory.wf_write ih _ _

/-- After a block save of n registers the k-th address holds V[k], and every cell outside the block is as
before. -/
theorem State.memRead_saveRegs (h : s.mem.wf) (n : Nat) (hn : n ≤ 16) :
    (∀ k, k < n → (s.saveRegs n).memRead (s.effAddr k) = s.reg (regOfNat k)) ∧
    ∀ a, (∀ k, k < n → cellOf a ≠ cellOf (s.effAddr k)) → (s.saveRegs n).memRead a = s.memRead a := by
  induction n with
  | zero => exact ⟨fun k hk => absurd hk (Nat.not_lt_zero k), fun _ _ => rfl⟩
  | succ n ih =>
    obtain ⟨hin, hout⟩ := ih (by omega)
    have hstep (a : Nat) := (s.saveRegs n).memRead_memWrite (s.saveRegs_wf h n) (s.effAddr n) a (s.reg (regOfNat n))
    simp only [State.saveRegs]
    refine ⟨fun k hk => ?_, fun a ha => ?_⟩
    · rw [hstep]
      by_cases hkn : k = n
      · subst hkn; rw [if_pos rfl]
      · rw [if_neg, hin k (by omega)]
        simp only [cellOf, State.effAddr, Config.memSize]; omega
    · rw [hstep, if_neg (ha n (by omega)), hout a fun k hk => ha k (by omega)]

/-- A block restore changes general registers only. -/
theorem State.restoreRegs_onlyRegs (n : Nat) : OnlyRegs s (s.restoreRegs n) := by
  have h : s.restoreRegs n = { s with v := (s.restoreRegs n).v } := by
    induction n with
    | zero => rfl
    | succ n ih => simp only [State.restoreRegs, State.setReg]; rw [ih]
  exact ⟨h, fun a => by rw [h]; rfl⟩

/-- After a block restore of n registers the first n hold the bytes of the block, and the others are as
before. -/
theorem State.reg_restoreRegs (n : Nat) (hn : n ≤ 16) (r : Reg) :
    (s.restoreRegs n).reg r = if r.val < n then s.memRead (s.effAddr r.val) else s.reg r := by
  induction n with
  | zero => simp [State.restoreRegs]
  | succ n ih =>
    simp only [State.restoreRegs, State.reg_setReg, ih (by omega)]
    have hval : (regOfNat n).val = n := Nat.mod_eq_of_lt (by omega)
    by_cases h : r = regOfNat n
    · rw [if_pos h, if_pos (by rw [h, hval]; omega), h, hval]
    · have : r.val ≠ n := fun e => h (Fin.ext (e.trans hval.symm))
      rw [if_neg h]
      by_cases hl : r.val < n
      · rw [if_pos hl, if_pos (by omega)]
      · rw [if_neg hl, if_neg (by omega)]

/-! ### Timers (47_timers.md R209, R211) -/

/-- A timer step: a stopped unit stays as it is, a running one goes one down and stops at 0. -/
theorem Timer.step_cases (t : Timer) :
    (t.running = false ∧ t.step = t) ∨
    (t.running = true ∧ t.value = 0 ∧ t.step = ⟨0, false⟩) ∨
    (t.running = true ∧ t.value.toNat = 1 ∧ t.step = ⟨0, false⟩) ∨
    (t.running = true ∧ 1 < t.value.toNat ∧ t.step = ⟨t.value - 1, true⟩) := by
  obtain ⟨value, running⟩ := t
  cases running with
  | false => exact .inl ⟨rfl, rfl⟩
  | true =>
    refine .inr ?_
    by_cases h0 : value = 0
    · subst h0; exact .inl ⟨rfl, rfl, rfl⟩
    · have hpos : 0 < value.toNat := by
        rcases Nat.eq_zero_or_pos value.toNat with h | h
        · exact absurd (BitVec.eq_of_toNat_eq h) h0
        · exact h
      by_cases h1 : value.toNat = 1
      · have : value = 1 := BitVec.eq_of_toNat_eq h1
        subst this; exact .inr (.inl ⟨rfl, rfl, rfl⟩)
      · refine .inr (.inr ⟨rfl, by simp only; omega, ?_⟩)
        have : ¬value - 1#8 = 0#8 := fun h => h1 (by
          have : value = 1 := by simpa using sub_eq_zero.1 h
          rw [this]; rfl)
        simp [Timer.step, hpos, this]

/-- A write keeps "a value above 0 runs" (R211). -/
theorem Timer.write_runs (t : Timer) (u : Byte) : (t.write u).value ≠ 0 → (t.write u).running = true := by
  intro h
  have hu : ¬u = 0 := h
  simp only [Timer.write, if_neg hu]

/-- A step keeps "a value above 0 runs". -/
theorem Timer.step_runs {t : Timer} (h : t.value ≠ 0 → t.running = true) :
    t.step.value ≠ 0 → t.step.running = true := by
  rcases t.step_cases with ⟨-, e⟩ | ⟨-, -, e⟩ | ⟨-, -, e⟩ | ⟨-, -, e⟩ <;> rw [e]
  · exact h
  · exact fun h => absurd rfl h
  · exact fun h => absurd rfl h
  · exact fun _ => rfl

/-! ### The key capture (46_keypad.md R193) -/

/-- A KeyDown sets its slot; it ends a wait by writing the waiting register, and changes nothing else. -/
theorem State.onKeyDown_cases (k : KeyCode) :
    (∃ x, s.runState = .waitingForKey x ∧
      s.onKeyDown k = { (s.setKey k true).setReg x (keyByte k) with runState := .running }) ∨
    ((∀ x, s.runState ≠ .waitingForKey x) ∧ s.onKeyDown k = s.setKey k true) := by
  unfold State.onKeyDown
  split
  · exact .inl ⟨_, ‹_›, rfl⟩
  · exact .inr ⟨fun x h => by simp_all, rfl⟩

end Sys2Proof.Machine
end

