-- ==== Sys2Proof/Laws/Display.lean ====
section
/-!
SUPPORT. The compositor: what toggling one pixel and drawing a list of pixels do to the grid, and that a
sprite lists no pixel twice (48_display.md R226 to R229).
-/

namespace Sys2Proof.Machine

/-- Two grids with the same pixels are the same grid. -/
theorem Grid.ext_at {g h : Grid} (e : ∀ p, g.at p = h.at p) : g = h := by
  apply Vector.ext
  intro i hi
  apply Vector.ext
  intro j hj
  exact e (⟨i, hi⟩, ⟨j, hj⟩)

/-- Every pixel of the clear grid is off. -/
theorem Grid.at_clear (p : Pixel) : Grid.clear.at p = false := by
  simp [Grid.at, Grid.clear, Vector.get_eq_getElem]

/-- Toggling inverts its pixel and leaves every other one. -/
theorem Grid.at_toggle (g : Grid) (p q : Pixel) :
    (g.toggle p).at q = if q = p then !g.at p else g.at q := by
  obtain ⟨pc, pr⟩ := p
  obtain ⟨qc, qr⟩ := q
  simp only [Grid.at, Grid.toggle, Vector.get_eq_getElem, Vector.getElem_set]
  by_cases hc : qc = pc
  · subst hc
    by_cases hr : qr = pr
    · subst hr; simp
    · have : (pr : Nat) ≠ qr := fun e => hr (Fin.ext e.symm)
      simp [this, hr]
  · have : (pc : Nat) ≠ qc := fun e => hc (Fin.ext e.symm)
    simp [this, hc]

/-- Drawing pixels none of which is listed twice inverts exactly those, and collides exactly when one of
them was on. -/
theorem Grid.draw_spec (g : Grid) (l : List Pixel) (hl : l.Nodup) :
    (∀ q, (g.draw l).1.at q = (g.at q ^^ decide (q ∈ l))) ∧ (g.draw l).2 = l.any fun p => g.at p := by
  suffices H : ∀ (l : List Pixel) (g : Grid) (b : Bool), l.Nodup →
      (∀ q, (l.foldl drawCell (g, b)).1.at q = (g.at q ^^ decide (q ∈ l))) ∧
      (l.foldl drawCell (g, b)).2 = (b || l.any fun p => g.at p) by
    simpa [Grid.draw] using H l g false hl
  intro l
  induction l with
  | nil => intro g b _; simp
  | cons p l ih =>
    intro g b hp
    obtain ⟨hnot, hl⟩ := List.nodup_cons.1 hp
    obtain ⟨hgrid, hflag⟩ := ih (g.toggle p) (b || g.at p) hl
    refine ⟨fun q => ?_, ?_⟩
    · rw [List.foldl_cons]
      change (List.foldl drawCell (g.toggle p, b || g.at p) l).1.at q = _
      rw [hgrid, Grid.at_toggle]
      by_cases h : q = p
      · subst h; simp [hnot]
      · simp [h]
    · rw [List.foldl_cons]
      change (List.foldl drawCell (g.toggle p, b || g.at p) l).2 = _
      have hsame : (l.any fun q => (g.toggle p).at q) = l.any fun q => g.at q := by
        rw [Bool.eq_iff_iff]
        simp only [List.any_eq_true, Grid.at_toggle]
        constructor
        · rintro ⟨q, hq, h⟩
          exact ⟨q, hq, by rwa [if_neg fun e : q = p => hnot (e ▸ hq)] at h⟩
        · rintro ⟨q, hq, h⟩
          exact ⟨q, hq, by rwa [if_neg fun e : q = p => hnot (e ▸ hq)]⟩
      rw [hflag, hsame, List.any_cons, Bool.or_assoc]

/-- Which pixels a sprite row lights: bit k from the left is bit 7 - k of the byte (R229). -/
theorem mem_rowCells {x0 r : Nat} {b : Byte} {p : Pixel} :
    p ∈ rowCells x0 r b ↔ ∃ bit, bit < 8 ∧ b.getLsbD (7 - bit) = true ∧ p = cellAt (x0 + bit) r := by
  simp only [rowCells, List.mem_filterMap, List.mem_range]
  constructor
  · rintro ⟨bit, hbit, h⟩
    split at h
    · exact ⟨bit, hbit, ‹_›, (Option.some.inj h).symm⟩
    · exact absurd h (by simp)
  · rintro ⟨bit, hbit, hb, rfl⟩
    exact ⟨bit, hbit, by simp [hb]⟩

/-- A pixel's coordinates are those of `cellAt` exactly when they agree modulo the grid's dimensions. -/
theorem eq_cellAt {c : Fin 64} {r : Fin 32} {x y : Nat} :
    (c, r) = cellAt x y ↔ c.val = x % 64 ∧ r.val = y % 32 := by
  simp [cellAt, Fin.ext_iff]

/-- Which pixels a sprite lights (R226). -/
theorem mem_spriteCells (s : State) {x0 y0 n : Nat} {c : Fin 64} {r : Fin 32} :
    (c, r) ∈ s.spriteCells x0 y0 n ↔ spriteLights s x0 y0 n c.val r.val := by
  simp only [State.spriteCells, List.mem_flatMap, List.mem_range, mem_rowCells, eq_cellAt]
  constructor
  · rintro ⟨row, hrow, bit, hbit, hb, hc, hr⟩
    exact ⟨row, bit, hrow, hbit, hb, hc, hr⟩
  · rintro ⟨row, bit, hrow, hbit, hb, hc, hr⟩
    exact ⟨row, hrow, bit, hbit, hb, hc, hr⟩

/-- A sprite is smaller than the grid, so it lists no pixel twice (R226, corner case 6). -/
theorem nodup_spriteCells (s : State) (x0 y0 n : Nat) (hn : n ≤ 32) : (s.spriteCells x0 y0 n).Nodup := by
  unfold State.spriteCells
  rw [List.nodup_flatMap]
  refine ⟨fun row _ => ?_, ?_⟩
  · unfold rowCells List.Nodup
    rw [List.pairwise_filterMap]
    refine List.pairwise_lt_range.imp_of_mem fun {a b} ha hb hab p hp q hq e => ?_
    have ha := List.mem_range.1 ha
    have hb := List.mem_range.1 hb
    split at hp <;> simp at hp
    split at hq <;> simp at hq
    have := (eq_cellAt.1 (hp.trans (e.trans hq.symm))).1
    simp only at this
    omega
  · refine List.pairwise_lt_range.imp_of_mem fun {a b} ha hb hab p hp hq => ?_
    have ha := List.mem_range.1 ha
    have hb := List.mem_range.1 hb
    obtain ⟨i, -, -, hi⟩ := mem_rowCells.1 hp
    obtain ⟨j, -, -, hj⟩ := mem_rowCells.1 hq
    have := (eq_cellAt.1 (hi.symm.trans hj)).2
    simp only at this
    omega

end Sys2Proof.Machine
end

