-- ==== Sys2Proof/Laws/Encoding.lean ====
section
/-!
SUPPORT. What the fields of a word built by a format of R91 are, that a word is rebuilt from its fields, and
what the masks of the opcode table keep of a format (30_encoding.md R90 to R93). Words are handled as
numbers: the fields are quotients and remainders (00_scope.md R8).
-/

namespace Sys2Proof

/-! ### Fields and formats as numbers -/

theorem toNat_opField (w : Word) : (opField w).toNat = w.toNat / 4096 := by
  have := w.isLt
  simp only [opField, BitVec.extractLsb'_toNat, Nat.shiftRight_eq_div_pow]; omega

theorem val_xField (w : Word) : (xField w).val = w.toNat / 256 % 16 := by
  have : (xField w).val = (w.extractLsb' 8 4).toNat := rfl
  rw [this, BitVec.extractLsb'_toNat, Nat.shiftRight_eq_div_pow]

theorem val_yField (w : Word) : (yField w).val = w.toNat / 16 % 16 := by
  have : (yField w).val = (w.extractLsb' 4 4).toNat := rfl
  rw [this, BitVec.extractLsb'_toNat, Nat.shiftRight_eq_div_pow]

theorem toNat_nField (w : Word) : (nField w).toNat = w.toNat % 16 := by
  simp only [nField, BitVec.extractLsb'_toNat, Nat.shiftRight_eq_div_pow]; omega

theorem toNat_kkField (w : Word) : (kkField w).toNat = w.toNat % 256 := by
  simp only [kkField, BitVec.extractLsb'_toNat, Nat.shiftRight_eq_div_pow]; omega

theorem toNat_nnnField (w : Word) : (nnnField w).toNat = w.toNat % 4096 := by
  simp only [nnnField, BitVec.extractLsb'_toNat, Nat.shiftRight_eq_div_pow]; omega

theorem toNat_formatNNN (c : BitVec 4) (nnn : BitVec 12) :
    (formatNNN c nnn).toNat = c.toNat * 4096 + nnn.toNat := by
  rw [formatNNN, BitVec.toNat_append, ← Nat.shiftLeft_add_eq_or_of_lt nnn.isLt, Nat.shiftLeft_eq]

theorem toNat_formatXKK (c : BitVec 4) (x : Reg) (kk : Byte) :
    (formatXKK c x kk).toNat = c.toNat * 4096 + x.val * 256 + kk.toNat := by
  have hx : (regBits x).toNat = x.val := rfl
  rw [formatXKK, BitVec.toNat_append, ← Nat.shiftLeft_add_eq_or_of_lt kk.isLt, BitVec.toNat_append,
    ← Nat.shiftLeft_add_eq_or_of_lt (regBits x).isLt, hx]
  simp only [Nat.shiftLeft_eq]; omega

theorem toNat_formatXYN (c : BitVec 4) (x y : Reg) (n : BitVec 4) :
    (formatXYN c x y n).toNat = c.toNat * 4096 + x.val * 256 + y.val * 16 + n.toNat := by
  have hx : (regBits x).toNat = x.val := rfl
  have hy : (regBits y).toNat = y.val := rfl
  rw [formatXYN, BitVec.toNat_append, ← Nat.shiftLeft_add_eq_or_of_lt n.isLt, BitVec.toNat_append,
    ← Nat.shiftLeft_add_eq_or_of_lt (regBits y).isLt, BitVec.toNat_append,
    ← Nat.shiftLeft_add_eq_or_of_lt (regBits x).isLt, hx, hy]
  simp only [Nat.shiftLeft_eq]; omega

/-! ### The fields of each format -/

section
variable (c : BitVec 4) (x y : Reg) (n : BitVec 4) (kk : Byte) (nnn : BitVec 12)

theorem opField_formatNNN : opField (formatNNN c nnn) = c :=
  BitVec.eq_of_toNat_eq (by rw [toNat_opField, toNat_formatNNN]; omega)

theorem nnnField_formatNNN : nnnField (formatNNN c nnn) = nnn :=
  BitVec.eq_of_toNat_eq (by rw [toNat_nnnField, toNat_formatNNN]; omega)

theorem opField_formatXKK : opField (formatXKK c x kk) = c :=
  BitVec.eq_of_toNat_eq (by rw [toNat_opField, toNat_formatXKK]; omega)

theorem xField_formatXKK : xField (formatXKK c x kk) = x :=
  Fin.ext (by rw [val_xField, toNat_formatXKK]; omega)

theorem kkField_formatXKK : kkField (formatXKK c x kk) = kk :=
  BitVec.eq_of_toNat_eq (by rw [toNat_kkField, toNat_formatXKK]; omega)

theorem opField_formatXYN : opField (formatXYN c x y n) = c :=
  BitVec.eq_of_toNat_eq (by rw [toNat_opField, toNat_formatXYN]; omega)

theorem xField_formatXYN : xField (formatXYN c x y n) = x :=
  Fin.ext (by rw [val_xField, toNat_formatXYN]; omega)

theorem yField_formatXYN : yField (formatXYN c x y n) = y :=
  Fin.ext (by rw [val_yField, toNat_formatXYN]; omega)

theorem nField_formatXYN : nField (formatXYN c x y n) = n :=
  BitVec.eq_of_toNat_eq (by rw [toNat_nField, toNat_formatXYN]; omega)

end

/-! ### A word is its fields -/

theorem formatNNN_fields (w : Word) : formatNNN (opField w) (nnnField w) = w :=
  BitVec.eq_of_toNat_eq (by rw [toNat_formatNNN, toNat_opField, toNat_nnnField]; omega)

theorem formatXKK_fields (w : Word) : formatXKK (opField w) (xField w) (kkField w) = w :=
  BitVec.eq_of_toNat_eq (by rw [toNat_formatXKK, toNat_opField, val_xField, toNat_kkField]; omega)

theorem formatXYN_fields (w : Word) : formatXYN (opField w) (xField w) (yField w) (nField w) = w :=
  BitVec.eq_of_toNat_eq (by
    rw [toNat_formatXYN, toNat_opField, val_xField, val_yField, toNat_nField]; omega)

/-! ### The masks of the opcode table -/

theorem getLsbD_formatNNN (c : BitVec 4) (nnn : BitVec 12) (i : Nat) :
    (formatNNN c nnn).getLsbD i = if i < 12 then nnn.getLsbD i else c.getLsbD (i - 12) :=
  BitVec.getLsbD_append

theorem getLsbD_formatXKK (c : BitVec 4) (x : Reg) (kk : Byte) (i : Nat) :
    (formatXKK c x kk).getLsbD i =
      if i < 8 then kk.getLsbD i else if i - 8 < 4 then (regBits x).getLsbD (i - 8) else c.getLsbD (i - 8 - 4) :=
  BitVec.getLsbD_append.trans (by rw [BitVec.getLsbD_append])

theorem getLsbD_formatXYN (c : BitVec 4) (x y : Reg) (n : BitVec 4) (i : Nat) :
    (formatXYN c x y n).getLsbD i =
      if i < 4 then n.getLsbD i else if i - 4 < 4 then (regBits y).getLsbD (i - 4)
      else if i - 4 - 4 < 4 then (regBits x).getLsbD (i - 4 - 4) else c.getLsbD (i - 4 - 4 - 4) :=
  BitVec.getLsbD_append.trans (by rw [BitVec.getLsbD_append, BitVec.getLsbD_append])

/-- The class mask keeps the opcode class. -/
theorem and_F000 (w : Word) : w &&& 0xF000#16 = formatNNN (opField w) 0 := by
  apply BitVec.eq_of_getLsbD_eq
  intro i hi
  rw [getLsbD_formatNNN]
  interval_cases i <;> simp [opField]

/-- The mask of format `F_XYF` keeps the class and the low nibble. -/
theorem and_F00F (w : Word) : w &&& 0xF00F#16 = formatXYN (opField w) 0 0 (nField w) := by
  apply BitVec.eq_of_getLsbD_eq
  intro i hi
  rw [getLsbD_formatXYN]
  interval_cases i <;> simp [opField, nField, regBits]

/-- The mask of format `F_XFF` keeps the class and the low byte. -/
theorem and_F0FF (w : Word) : w &&& 0xF0FF#16 = formatXKK (opField w) 0 (kkField w) := by
  apply BitVec.eq_of_getLsbD_eq
  intro i hi
  rw [getLsbD_formatXKK]
  interval_cases i <;> simp [opField, kkField, regBits]

end Sys2Proof
end

