-- ==== Sys2Proof/Laws/PerInstr.lean ====
section
/-!
SUPPORT. The family `TableRow`: of every instruction, that its encoding is covered by the instruction's own
row, and that this row stands in the opcode table (30_encoding.md R93).
-/

namespace Sys2Proof.Laws.TableRow

/-- The encoding of an instruction matches the instruction's row of the opcode table. -/
def Statement (i : Instr) : Prop := i.row ∈ opcodeTable ∧ i.row.covers (encode i) = true

/-- A row with the class mask covers a word of its class. -/
theorem covers_F000 {w : Word} {p : Word} (h : formatNNN (opField w) 0 = p) :
    (OpcodeRow.mk 0xF000 p).covers w = true := by
  simp only [OpcodeRow.covers, beq_iff_eq]; exact (and_F000 w).trans h

/-- A row of format `F_XYF` covers a word of its class and function code. -/
theorem covers_F00F {w : Word} {p : Word} (h : formatXYN (opField w) 0 0 (nField w) = p) :
    (OpcodeRow.mk 0xF00F p).covers w = true := by
  simp only [OpcodeRow.covers, beq_iff_eq]; exact (and_F00F w).trans h

/-- A row of format `F_XFF` covers a word of its class and function code. -/
theorem covers_F0FF {w : Word} {p : Word} (h : formatXKK (opField w) 0 (kkField w) = p) :
    (OpcodeRow.mk 0xF0FF p).covers w = true := by
  simp only [OpcodeRow.covers, beq_iff_eq]; exact (and_F0FF w).trans h

theorem cls : Statement .cls := ⟨by decide, by decide⟩
theorem ret : Statement .ret := ⟨by decide, by decide⟩
theorem jp (nnn : BitVec 12) : Statement (.jp nnn) :=
  ⟨by simp only [Instr.row]; decide, covers_F000 (by rw [encode, opField_formatNNN]; rfl)⟩
theorem call (nnn : BitVec 12) : Statement (.call nnn) :=
  ⟨by simp only [Instr.row]; decide, covers_F000 (by rw [encode, opField_formatNNN]; rfl)⟩
theorem seByte (x : Reg) (kk : Byte) : Statement (.seByte x kk) :=
  ⟨by simp only [Instr.row]; decide, covers_F000 (by rw [encode, opField_formatXKK]; rfl)⟩
theorem sneByte (x : Reg) (kk : Byte) : Statement (.sneByte x kk) :=
  ⟨by simp only [Instr.row]; decide, covers_F000 (by rw [encode, opField_formatXKK]; rfl)⟩
theorem seReg (x y : Reg) : Statement (.seReg x y) :=
  ⟨by simp only [Instr.row]; decide, covers_F00F (by rw [encode, opField_formatXYN, nField_formatXYN]; rfl)⟩
theorem ldByte (x : Reg) (kk : Byte) : Statement (.ldByte x kk) :=
  ⟨by simp only [Instr.row]; decide, covers_F000 (by rw [encode, opField_formatXKK]; rfl)⟩
theorem addByte (x : Reg) (kk : Byte) : Statement (.addByte x kk) :=
  ⟨by simp only [Instr.row]; decide, covers_F000 (by rw [encode, opField_formatXKK]; rfl)⟩
theorem ldReg (x y : Reg) : Statement (.ldReg x y) :=
  ⟨by simp only [Instr.row]; decide, covers_F00F (by rw [encode, opField_formatXYN, nField_formatXYN]; rfl)⟩
theorem orReg (x y : Reg) : Statement (.orReg x y) :=
  ⟨by simp only [Instr.row]; decide, covers_F00F (by rw [encode, opField_formatXYN, nField_formatXYN]; rfl)⟩
theorem andReg (x y : Reg) : Statement (.andReg x y) :=
  ⟨by simp only [Instr.row]; decide, covers_F00F (by rw [encode, opField_formatXYN, nField_formatXYN]; rfl)⟩
theorem xorReg (x y : Reg) : Statement (.xorReg x y) :=
  ⟨by simp only [Instr.row]; decide, covers_F00F (by rw [encode, opField_formatXYN, nField_formatXYN]; rfl)⟩
theorem addReg (x y : Reg) : Statement (.addReg x y) :=
  ⟨by simp only [Instr.row]; decide, covers_F00F (by rw [encode, opField_formatXYN, nField_formatXYN]; rfl)⟩
theorem sub (x y : Reg) : Statement (.sub x y) :=
  ⟨by simp only [Instr.row]; decide, covers_F00F (by rw [encode, opField_formatXYN, nField_formatXYN]; rfl)⟩
theorem shr (x y : Reg) : Statement (.shr x y) :=
  ⟨by simp only [Instr.row]; decide, covers_F00F (by rw [encode, opField_formatXYN, nField_formatXYN]; rfl)⟩
theorem subn (x y : Reg) : Statement (.subn x y) :=
  ⟨by simp only [Instr.row]; decide, covers_F00F (by rw [encode, opField_formatXYN, nField_formatXYN]; rfl)⟩
theorem shl (x y : Reg) : Statement (.shl x y) :=
  ⟨by simp only [Instr.row]; decide, covers_F00F (by rw [encode, opField_formatXYN, nField_formatXYN]; rfl)⟩
theorem sneReg (x y : Reg) : Statement (.sneReg x y) :=
  ⟨by simp only [Instr.row]; decide, covers_F00F (by rw [encode, opField_formatXYN, nField_formatXYN]; rfl)⟩
theorem ldI (nnn : BitVec 12) : Statement (.ldI nnn) :=
  ⟨by simp only [Instr.row]; decide, covers_F000 (by rw [encode, opField_formatNNN]; rfl)⟩
theorem jpV0 (nnn : BitVec 12) : Statement (.jpV0 nnn) :=
  ⟨by simp only [Instr.row]; decide, covers_F000 (by rw [encode, opField_formatNNN]; rfl)⟩
theorem rnd (x : Reg) (kk : Byte) : Statement (.rnd x kk) :=
  ⟨by simp only [Instr.row]; decide, covers_F000 (by rw [encode, opField_formatXKK]; rfl)⟩
theorem drw (x y : Reg) (n : BitVec 4) : Statement (.drw x y n) :=
  ⟨by simp only [Instr.row]; decide, covers_F000 (by rw [encode, opField_formatXYN]; rfl)⟩
theorem skp (x : Reg) : Statement (.skp x) :=
  ⟨by simp only [Instr.row]; decide, covers_F0FF (by rw [encode, opField_formatXKK, kkField_formatXKK]; rfl)⟩
theorem sknp (x : Reg) : Statement (.sknp x) :=
  ⟨by simp only [Instr.row]; decide, covers_F0FF (by rw [encode, opField_formatXKK, kkField_formatXKK]; rfl)⟩
theorem ldVxDt (x : Reg) : Statement (.ldVxDt x) :=
  ⟨by simp only [Instr.row]; decide, covers_F0FF (by rw [encode, opField_formatXKK, kkField_formatXKK]; rfl)⟩
theorem ldVxK (x : Reg) : Statement (.ldVxK x) :=
  ⟨by simp only [Instr.row]; decide, covers_F0FF (by rw [encode, opField_formatXKK, kkField_formatXKK]; rfl)⟩
theorem ldDtVx (x : Reg) : Statement (.ldDtVx x) :=
  ⟨by simp only [Instr.row]; decide, covers_F0FF (by rw [encode, opField_formatXKK, kkField_formatXKK]; rfl)⟩
theorem ldStVx (x : Reg) : Statement (.ldStVx x) :=
  ⟨by simp only [Instr.row]; decide, covers_F0FF (by rw [encode, opField_formatXKK, kkField_formatXKK]; rfl)⟩
theorem addIVx (x : Reg) : Statement (.addIVx x) :=
  ⟨by simp only [Instr.row]; decide, covers_F0FF (by rw [encode, opField_formatXKK, kkField_formatXKK]; rfl)⟩
theorem ldFVx (x : Reg) : Statement (.ldFVx x) :=
  ⟨by simp only [Instr.row]; decide, covers_F0FF (by rw [encode, opField_formatXKK, kkField_formatXKK]; rfl)⟩
theorem ldBVx (x : Reg) : Statement (.ldBVx x) :=
  ⟨by simp only [Instr.row]; decide, covers_F0FF (by rw [encode, opField_formatXKK, kkField_formatXKK]; rfl)⟩
theorem ldMemVx (x : Reg) : Statement (.ldMemVx x) :=
  ⟨by simp only [Instr.row]; decide, covers_F0FF (by rw [encode, opField_formatXKK, kkField_formatXKK]; rfl)⟩
theorem ldVxMem (x : Reg) : Statement (.ldVxMem x) :=
  ⟨by simp only [Instr.row]; decide, covers_F0FF (by rw [encode, opField_formatXKK, kkField_formatXKK]; rfl)⟩

end Sys2Proof.Laws.TableRow
end

