-- ==== Sys2Proof/Laws/Step.lean ====
section
/-!
SUPPORT. What a step can do, once: the three ways a CpuStep goes, what the next event and the state it meets
are, what a load leaves, and what each instruction that is not a plain register move changes
(30_encoding.md R100, 70_reset_and_hazards.md R281 to R283).
-/

namespace Sys2Proof.Machine

/-- A CpuStep does nothing outside Running; in Running it is `exec` of the decoded instruction with PC past
it and the draw in place, or the halt on an unknown word. -/
theorem State.cpuStep_cases (r : Byte) (s : State) :
    (s.runState ≠ .running ∧ s.cpuStep r = .next s) ∨
    (∃ i, s.runState = .running ∧ decode s.fetchWord = .ok i ∧
      s.cpuStep r = exec i { s with pc := s.pc + 2, draw := r }) ∨
    (∃ e, s.runState = .running ∧ decode s.fetchWord = .error e ∧
      s.cpuStep r = .next (s.advancePc.raiseFault .unknownOpcode s.pc s.fetchWord)) := by
  unfold State.cpuStep
  split
  · split
    · exact .inr (.inl ⟨_, ‹_›, ‹_›, rfl⟩)
    · exact .inr (.inr ⟨_, ‹_›, ‹_›, rfl⟩)
  · exact .inl ⟨‹_›, rfl⟩

/-- The next event meets the state as it is, but for the model's own fields. -/
theorem State.nextEvent_state (s : State) :
    s.nextEvent.2 = { s with
      script := s.nextEvent.2.script, drawCount := s.nextEvent.2.drawCount, effects := [] } := by
  unfold State.nextEvent
  split <;> rfl

/-- A load that fits resets everything but the model's own fields; one that does not fit is a failure. -/
theorem State.onLoadProgram_cases (s : State) (bytes : List Byte) :
    (bytes.length ≤ 3584 ∧ s.onLoadProgram bytes = { State.reset with
      mem := Memory.load State.reset.mem bytes 0x200, runState := .running,
      draw := s.draw, drawCount := s.drawCount, script := s.script, effects := s.effects }) ∨
    (3584 < bytes.length ∧ s.onLoadProgram bytes = s.onLoadFailure) := by
  by_cases h : bytes.length ≤ 3584
  · exact .inl ⟨h, if_pos (decide_eq_true h)⟩
  · exact .inr ⟨Nat.lt_of_not_le h, if_neg fun e => h (of_decide_eq_true e)⟩

/-- What CALL does: the push and the jump, or the halt on a full stack. -/
theorem exec_call_cases (nnn : BitVec 12) (s : State) :
    (s.stack.length = 16 ∧ exec (.call nnn) s =
      .next (s.raiseFault .stackOverflow s.fetchAddr (encode (.call nnn)))) ∨
    (s.stack.length ≠ 16 ∧ exec (.call nnn) s =
      .next { s with pc := addr16 nnn, stack := s.stack ++ [s.pc] }) := by
  simp only [exec, execCall]
  rcases s.push_cases s.pc with ⟨h, e⟩ | ⟨h, e⟩ <;> rw [e]
  · exact .inl ⟨h, rfl⟩
  · exact .inr ⟨h, rfl⟩

/-- What RET does: the pop into PC, or the halt on an empty stack. -/
theorem exec_ret_cases (s : State) :
    (s.stack = [] ∧ exec .ret s = .next (s.raiseFault .stackUnderflow s.fetchAddr (encode .ret))) ∨
    (∃ rest u, s.stack = rest ++ [u] ∧ exec .ret s = .next { s with pc := u, stack := rest }) := by
  simp only [exec, execRet]
  rcases s.pop_cases with ⟨h, e⟩ | ⟨rest, u, h, e⟩ <;> rw [e]
  · exact .inl ⟨h, rfl⟩
  · exact .inr ⟨rest, u, h, rfl⟩

/-- What DRW changes: VF, the grid and one effect; the grid is the old one with the sprite's pixels
inverted, and VF is whether one of them was on. -/
theorem exec_drw_spec (x y : Reg) (n : BitVec 4) (s : State) :
    ∃ t, exec (.drw x y n) s = .next t ∧
      t = { s with v := t.v, disp := t.disp, effects := s.effects ++ [.displayChanged] } ∧
      (∀ r, r ≠ 15 → t.reg r = s.reg r) ∧
      t.reg 15 = flagByte
        ((s.spriteCells (s.reg x).toNat (s.reg y).toNat n.toNat).any fun p => s.disp.at p) ∧
      ∀ q, t.disp.at q =
        (s.disp.at q ^^ decide (q ∈ s.spriteCells (s.reg x).toNat (s.reg y).toNat n.toNat)) := by
  obtain ⟨h1, h2⟩ := Grid.draw_spec s.disp _
    (nodup_spriteCells s (s.reg x).toNat (s.reg y).toNat n.toNat (by omega))
  refine ⟨_, rfl, rfl, fun r hr => ?_, ?_, h1⟩
  · exact (State.reg_setReg _ _ _ _).trans (if_neg hr)
  · exact (State.reg_setReg _ _ _ _).trans ((if_pos rfl).trans (congrArg flagByte h2))

/-- The instructions that may change the stack, a timer or the run-state. -/
def touchesControl : Instr → Bool
  | .call _ | .ret | .ldVxK _ | .ldDtVx _ | .ldStVx _ => true
  | _ => false

/-- Every other instruction leaves the stack, the timers, the keys, the run-state and the inputs of the
step. -/
theorem exec_plain {i : Instr} {s t : State} (hi : touchesControl i = false) (h : exec i s = .next t) :
    t = { s with
      v := t.v, index := t.index, pc := t.pc, disp := t.disp, mem := t.mem, effects := t.effects } := by
  cases i with
  | call | ret | ldVxK | ldDtVx | ldStVx => cases hi
  | ldMemVx x => cases h; rw [s.saveRegs_onlyMemory]
  | ldVxMem x => cases h; rw [(s.restoreRegs_onlyRegs _).1]
  | drw x y n => obtain ⟨u, e, hu, -⟩ := exec_drw_spec x y n s; rw [e] at h; cases h; rw [hu]
  | seByte | sneByte | seReg | sneReg | skp | sknp => cases h; rw [State.skipIf_eq]
  | _ => cases h; rfl

/-- How an instruction can change the run-state: `Fx0A` starts a wait, a CALL or a RET may halt with its own
fetch address and word, and nothing else changes it. -/
theorem exec_runState {i : Instr} {s t : State} (h : exec i s = .next t) :
    t.runState = s.runState ∨ (∃ x, i = .ldVxK x ∧ t = { s with runState := .waitingForKey x }) ∨
    (∃ n, i = .call n ∧ s.stack.length = 16 ∧ t = s.raiseFault .stackOverflow s.fetchAddr (encode i)) ∨
    (i = .ret ∧ s.stack = [] ∧ t = s.raiseFault .stackUnderflow s.fetchAddr (encode i)) := by
  by_cases hi : touchesControl i = false
  · rw [exec_plain hi h]; exact .inl rfl
  cases i with
  | call n =>
    rcases exec_call_cases n s with ⟨hn, e⟩ | ⟨-, e⟩ <;> rw [e] at h <;> cases h
    · exact .inr (.inr (.inl ⟨n, rfl, hn, rfl⟩))
    · exact .inl rfl
  | ret =>
    rcases exec_ret_cases s with ⟨hn, e⟩ | ⟨_, _, -, e⟩ <;> rw [e] at h <;> cases h
    · exact .inr (.inr (.inr ⟨rfl, hn, rfl⟩))
    · exact .inl rfl
  | ldVxK x => cases h; exact .inr (.inl ⟨x, rfl, rfl⟩)
  | ldDtVx x => cases h; exact .inl rfl
  | ldStVx x => cases h; exact .inl rfl
  | _ => exact absurd rfl hi

end Sys2Proof.Machine
end

