-- ==== Sys2Proof/Tests/Slice0.lean ====
section
/-!
SUPPORT. Tests. Expected results are the spec's own: the examples in each rule and the vectors of
95_test_vectors.md, named in the comment before each test; the words of the decode tests are written out by
hand from 30_encoding.md R91 and R93. The witnesses at the end show that each statement's hypotheses can be
met, at the ends of their ranges.
-/

namespace Sys2Proof.Tests

open Sys2Proof Sys2Proof.Machine

/-! ### The ill-formed inputs (30_encoding.md R95, 70_reset_and_hazards.md R282, vectors V-FE-7, V-RS-4) -/

theorem test_illFormed_class0 : wellFormedWord 0x0000 = false ∧ decode 0x0000 = .error .unknownClass0 := by decide
theorem test_illFormed_sys : wellFormedWord 0x0123 = false ∧ decode 0x0123 = .error .unknownClass0 := by decide
theorem test_illFormed_class5 : wellFormedWord 0x5AB1 = false ∧ decode 0x5AB1 = .error .unknownClass5 := by decide
theorem test_illFormed_class8 : wellFormedWord 0x8AB8 = false ∧ decode 0x8AB8 = .error .unknownClass8 := by decide
theorem test_illFormed_class8_F : wellFormedWord 0x8ABF = false ∧ decode 0x8ABF = .error .unknownClass8 := by decide
theorem test_illFormed_class9 : wellFormedWord 0x9AB1 = false ∧ decode 0x9AB1 = .error .unknownClass9 := by decide
theorem test_illFormed_classE : wellFormedWord 0xE19D = false ∧ decode 0xE19D = .error .unknownClassE := by decide
theorem test_illFormed_classF : wellFormedWord 0xF130 = false ∧ decode 0xF130 = .error .unknownClassF := by decide
theorem test_illFormed_truncated : decodeBytes [0x60] = .error .truncated := by decide
theorem test_illFormed_program : wellFormedProgram (List.replicate 3585 0xFF) = false :=
  decide_eq_false (by rw [List.length_replicate]; decide)
theorem test_wellFormed_program : wellFormedProgram (List.replicate 3584 0xFF) = true :=
  decide_eq_true (by rw [List.length_replicate]; decide)
theorem test_wellFormed_word : wellFormedWord 0xD015 = true := by decide

/-! ### Decoding: one word per constructor, written out from 30_encoding.md R93 -/

theorem test_decode_cls : decodeTableWord 16 0x00E0 = some .cls := by decide
theorem test_decode_ret : decodeTableWord 16 0x00EE = some .ret := by decide
theorem test_decode_jp : decodeTableWord 16 0x1ABC = some (.jp 0xABC) := by decide
theorem test_decode_call : decodeTableWord 16 0x2ABC = some (.call 0xABC) := by decide
theorem test_decode_seByte : decodeTableWord 16 0x3A05 = some (.seByte 0xA 0x05) := by decide
theorem test_decode_sneByte : decodeTableWord 16 0x4B50 = some (.sneByte 0xB 0x50) := by decide
theorem test_decode_seReg : decodeTableWord 16 0x5120 = some (.seReg 1 2) := by decide
theorem test_decode_ldByte : decodeTableWord 16 0x6F2A = some (.ldByte 0xF 0x2A) := by decide
theorem test_decode_addByte : decodeTableWord 16 0x7003 = some (.addByte 0 0x03) := by decide
theorem test_decode_ldReg : decodeTableWord 16 0x8120 = some (.ldReg 1 2) := by decide
theorem test_decode_orReg : decodeTableWord 16 0x8121 = some (.orReg 1 2) := by decide
theorem test_decode_andReg : decodeTableWord 16 0x8122 = some (.andReg 1 2) := by decide
theorem test_decode_xorReg : decodeTableWord 16 0x8123 = some (.xorReg 1 2) := by decide
theorem test_decode_addReg : decodeTableWord 16 0x8014 = some (.addReg 0 1) := by decide
theorem test_decode_sub : decodeTableWord 16 0x8015 = some (.sub 0 1) := by decide
theorem test_decode_shr : decodeTableWord 16 0x8A36 = some (.shr 0xA 3) := by decide
theorem test_decode_subn : decodeTableWord 16 0x8017 = some (.subn 0 1) := by decide
theorem test_decode_shl : decodeTableWord 16 0x801E = some (.shl 0 1) := by decide
theorem test_decode_sneReg : decodeTableWord 16 0x9120 = some (.sneReg 1 2) := by decide
theorem test_decode_ldI : decodeTableWord 16 0xA2F0 = some (.ldI 0x2F0) := by decide
theorem test_decode_jpV0 : decodeTableWord 16 0xBFFF = some (.jpV0 0xFFF) := by decide
theorem test_decode_rnd : decodeTableWord 16 0xC10F = some (.rnd 1 0x0F) := by decide
theorem test_decode_drw : decodeTableWord 16 0xD015 = some (.drw 0 1 5) := by decide
theorem test_decode_skp : decodeTableWord 16 0xE59E = some (.skp 5) := by decide
theorem test_decode_sknp : decodeTableWord 16 0xE5A1 = some (.sknp 5) := by decide
theorem test_decode_ldVxDt : decodeTableWord 16 0xF107 = some (.ldVxDt 1) := by decide
theorem test_decode_ldVxK : decodeTableWord 16 0xF30A = some (.ldVxK 3) := by decide
theorem test_decode_ldDtVx : decodeTableWord 16 0xF915 = some (.ldDtVx 9) := by decide
theorem test_decode_ldStVx : decodeTableWord 16 0xF918 = some (.ldStVx 9) := by decide
theorem test_decode_addIVx : decodeTableWord 16 0xF31E = some (.addIVx 3) := by decide
theorem test_decode_ldFVx : decodeTableWord 16 0xFA29 = some (.ldFVx 0xA) := by decide
theorem test_decode_ldBVx : decodeTableWord 16 0xF033 = some (.ldBVx 0) := by decide
theorem test_decode_ldMemVx : decodeTableWord 16 0xF255 = some (.ldMemVx 2) := by decide
theorem test_decode_ldVxMem : decodeTableWord 16 0xF165 = some (.ldVxMem 1) := by decide
theorem test_encode_drw : encodeBytes (.drw 0xA 3 0xF) = [0xDA, 0x3F] := by decide

/-! ### Small states -/

/-- The reset state, running, with one instruction at 0x200. -/
def at200 (w : Nat) : State := State.reset.withFetchWord 16 w

/-- The state an outcome goes on with; the machine answers no other outcome. -/
def after (s : State) : Host.Outcome State Fault Refusal → State
  | .next t => t
  | _ => s

/-- One CpuStep with draw r. -/
def cpu (s : State) (r : Byte := 0) : State := after s (s.deliver (.cpuStep r))

/-- Another event. -/
def ev (s : State) (e : Event) : State := after s (s.deliver e)

/-- A stack of n entries 0x0300. -/
def stackOf (n : Nat) (s : State) : State := { s with stack := List.replicate n 0x0300 }

/-! ### Fetch (V-FE-1, V-FE-3, V-FE-7, X11) -/

theorem test_fetch_wraps :
    let s := cpu (((({ at200 0 with pc := 0x0FFF } : State).memWrite 0xFFF 0x60).memWrite 0 0x77))
    s.reg 0 = 0x77 ∧ s.pc = 0x1001 := by decide
theorem test_fetch_pc_wraps :
    let s := cpu (((({ at200 0 with pc := 0xFFFE } : State).memWrite 0xFFE 0x62).memWrite 0xFFF 0x99))
    s.reg 2 = 0x99 ∧ s.pc = 0 := by decide
theorem test_unknown_halts :
    let s := cpu (at200 0xFFFF)
    s.runState = .halted ⟨.unknownOpcode, 0x0200, 0xFFFF⟩ ∧ s.pc = 0x0202 ∧
      s.effects = [.fault ⟨.unknownOpcode, 0x0200, 0xFFFF⟩] ∧ s.reg 15 = 0 := by decide
theorem test_step_runs_first :
    ∃ t, step (State.reset.withFetchWord 16 0x6005) = .next t ∧ t.reg 0 = 5 ∧ t.pc = 0x0202 :=
  ⟨_, rfl, by decide, by decide⟩
theorem test_reset_does_nothing : cpu State.reset = State.reset := rfl

/-! ### Control flow (V-CF-1 to V-CF-11) -/

theorem test_ret :
    let s := cpu { at200 0x00EE with stack := [0x0ABC, 0x1235] }
    s.pc = 0x1235 ∧ s.stack = [0x0ABC] := by decide
theorem test_ret_underflow :
    let s := cpu (at200 0x00EE)
    s.runState = .halted ⟨.stackUnderflow, 0x0200, 0x00EE⟩ ∧ s.pc = 0x0202 ∧ s.stack = [] := by decide
theorem test_jp : (cpu (at200 0x1234)).pc = 0x0234 := by decide
theorem test_call :
    let s := cpu ((((({ at200 0 with pc := 0x0FFE } : State).memWrite 0xFFE 0x2A)).memWrite 0xFFF 0xBC))
    s.pc = 0x0ABC ∧ s.stack = [0x1000] := by decide
theorem test_call_overflow :
    let s := cpu (stackOf 16 (at200 0x2ABC))
    s.runState = .halted ⟨.stackOverflow, 0x0200, 0x2ABC⟩ ∧ s.pc = 0x0202 ∧ s.stack.length = 16 := by decide
theorem test_jpV0 : (cpu ((at200 0xBFFF).setReg 0 0xFF)).pc = 0x10FE := by decide

/-! ### Skips (V-SK-1 to V-SK-9, V-KY-1 to V-KY-4) -/

theorem test_seByte_skips : (cpu ((at200 0x3005).setReg 0 5)).pc = 0x0204 := by decide
theorem test_seByte_stays : (cpu ((at200 0x3005).setReg 0 4)).pc = 0x0202 := by decide
theorem test_sneByte_skips : (cpu ((at200 0x4005).setReg 0 4)).pc = 0x0204 := by decide
theorem test_sneByte_stays : (cpu ((at200 0x4005).setReg 0 5)).pc = 0x0202 := by decide
theorem test_seReg_skips : (cpu (((at200 0x5120).setReg 1 7).setReg 2 7)).pc = 0x0204 := by decide
theorem test_seReg_stays : (cpu (((at200 0x5120).setReg 1 7).setReg 2 8)).pc = 0x0202 := by decide
theorem test_sneReg_skips : (cpu (((at200 0x9120).setReg 1 7).setReg 2 8)).pc = 0x0204 := by decide
theorem test_sneReg_self : (cpu ((at200 0x9330).setReg 3 7)).pc = 0x0202 := by decide
theorem test_skp_low_nibble : (cpu (((at200 0xE09E).setReg 0 0xF5).setKey 5 true)).pc = 0x0204 := by decide
theorem test_skp_stays : (cpu ((at200 0xE09E).setReg 0 5)).pc = 0x0202 := by decide
theorem test_sknp_skips : (cpu ((at200 0xE0A1).setReg 0 5)).pc = 0x0204 := by decide
theorem test_sknp_stays : (cpu (((at200 0xE0A1).setReg 0 5).setKey 5 true)).pc = 0x0202 := by decide

/-! ### Loads (V-LD-2, V-LD-3, V-LD-6) -/

theorem test_ldByte : (cpu (at200 0x6F2A)).reg 15 = 0x2A := by decide
theorem test_ldReg :
    let s := cpu ((at200 0x8120).setReg 2 0x3C)
    s.reg 1 = 0x3C ∧ s.reg 2 = 0x3C := by decide
theorem test_ldI : (cpu { at200 0xA000 with index := 0x1234 }).index = 0 := by decide

/-! ### Arithmetic and logic (V-AL-1 to V-AL-32) -/

theorem test_addByte_keeps_VF :
    let s := cpu (((at200 0x70FF).setReg 0 1).setReg 15 7)
    s.reg 0 = 0 ∧ s.reg 15 = 7 := by decide
theorem test_addByte_VF : (cpu ((at200 0x7F01).setReg 15 0xFF)).reg 15 = 0 := by decide
theorem test_orReg :
    let s := cpu ((((at200 0x8011).setReg 0 0xF0).setReg 1 0x0F).setReg 15 9)
    s.reg 0 = 0xFF ∧ s.reg 15 = 9 := by decide
theorem test_andReg :
    let s := cpu ((((at200 0x8012).setReg 0 0xF3).setReg 1 0x3F).setReg 15 9)
    s.reg 0 = 0x33 ∧ s.reg 15 = 9 := by decide
theorem test_xorReg :
    let s := cpu ((((at200 0x8013).setReg 0 0xFF).setReg 1 0x0F).setReg 15 9)
    s.reg 0 = 0xF0 ∧ s.reg 15 = 9 := by decide
theorem test_addReg_carry :
    let s := cpu (((at200 0x8014).setReg 0 0xFF).setReg 1 0xFF)
    s.reg 0 = 0xFE ∧ s.reg 15 = 1 := by decide
theorem test_addReg_VF_wins : (cpu (((at200 0x8F14).setReg 15 0x10).setReg 1 0x20)).reg 15 = 0 := by decide
theorem test_sub_borrow :
    let s := cpu (((at200 0x8015).setReg 0 3).setReg 1 5)
    s.reg 0 = 0xFE ∧ s.reg 15 = 0 := by decide
theorem test_sub_equal :
    let s := cpu (((at200 0x8015).setReg 0 5).setReg 1 5)
    s.reg 0 = 0 ∧ s.reg 15 = 1 := by decide
theorem test_shr_ignores_Vy :
    let s := cpu (((at200 0x8016).setReg 0 5).setReg 1 0xF0)
    s.reg 0 = 2 ∧ s.reg 1 = 0xF0 ∧ s.reg 15 = 1 := by decide
theorem test_shr_VF : (cpu ((at200 0x8F06).setReg 15 2)).reg 15 = 0 := by decide
theorem test_subn :
    let s := cpu (((at200 0x8017).setReg 0 3).setReg 1 5)
    s.reg 0 = 2 ∧ s.reg 15 = 1 := by decide
theorem test_subn_borrow :
    let s := cpu (((at200 0x8017).setReg 0 5).setReg 1 3)
    s.reg 0 = 0xFE ∧ s.reg 15 = 0 := by decide
theorem test_shl :
    let s := cpu (((at200 0x801E).setReg 0 0x81).setReg 1 0x0F)
    s.reg 0 = 2 ∧ s.reg 15 = 1 := by decide
theorem test_shl_VF : (cpu ((at200 0x8F0E).setReg 15 0x7F)).reg 15 = 0 := by decide

/-! ### Random (V-RN-1, V-RN-5) -/

theorem test_rnd : (cpu (at200 0xC00F) 0xA7).reg 0 = 0x07 := by decide
theorem test_draw_ignored : (cpu (at200 0x6005) 0xFF).reg 0 = 5 := by decide

/-! ### Index and memory (V-IM-2 to V-IM-15) -/

theorem test_addIVx :
    let s := cpu (({ at200 0xF01E with index := 0x0FFF } : State).setReg 0 1)
    s.index = 0x1000 ∧ s.reg 15 = 0 := by decide
theorem test_addIVx_wraps : (cpu (({ at200 0xF01E with index := 0xFF01 } : State).setReg 0 0xFF)).index = 0 := by
  decide
theorem test_ldFVx : (cpu ((at200 0xF029).setReg 0 0x1A)).index = 0x0032 := by decide
theorem test_ldBVx :
    let s := cpu (({ at200 0xF033 with index := 0x0FFE } : State).setReg 0 123)
    s.memRead 0xFFE = 1 ∧ s.memRead 0xFFF = 2 ∧ s.memRead 0x000 = 3 ∧ s.index = 0x0FFE := by decide
theorem test_ldMemVx :
    let s := cpu (((({ at200 0xF155 with index := 0x0FFF } : State).setReg 0 0x11).setReg 1 0x22).setReg 2 0x33)
    s.memRead 0xFFF = 0x11 ∧ s.memRead 0x000 = 0x22 ∧ s.memRead 0x001 = 0x90 ∧ s.index = 0x0FFF := by decide
theorem test_ldVxMem :
    let s := cpu ((({ at200 0xF165 with index := 0x0FFF } : State).memWrite 0xFFF 0xAA).setReg 2 0x77)
    s.reg 0 = 0xAA ∧ s.reg 1 = 0xF0 ∧ s.reg 2 = 0x77 ∧ s.index = 0x0FFF := by decide

/-! ### Keypad (V-KY-7 to V-KY-14) -/

theorem test_ldVxK_ignores_held :
    let s := cpu (cpu ((at200 0xF30A).setKey 4 true))
    s.runState = .waitingForKey 3 ∧ s.pc = 0x0202 ∧ s.reg 3 = 0 := by decide
theorem test_ldVxK_captures :
    let s := ev (cpu (at200 0xF30A)) (.keyDown 4)
    s.runState = .running ∧ s.reg 3 = 4 ∧ s.keyPressed 4 = true ∧ s.pc = 0x0202 := by decide
theorem test_keyUp :
    let s := ev ((cpu (at200 0xF30A)).setKey 4 true) (.keyUp 4)
    s.runState = .waitingForKey 3 ∧ s.keyPressed 4 = false := by decide
theorem test_keyDown_halted :
    let s := ev (cpu (at200 0x0000)) (.keyDown 2)
    s.runState = .halted ⟨.unknownOpcode, 0x0200, 0x0000⟩ ∧ s.keyPressed 2 = true := by decide

/-! ### Timers (V-TM-1 to V-TM-12) -/

theorem test_ldDtVx : (cpu ((at200 0xF015).setReg 0 3)).dt = ⟨3, true⟩ := by decide
theorem test_ldDtVx_zero :
    let s := cpu { at200 0xF015 with dt := ⟨5, true⟩ }
    s.dt = ⟨0, true⟩ ∧ (ev s .dtTick).dt = ⟨0, false⟩ := by decide
theorem test_ldVxDt : (cpu { at200 0xF107 with dt := ⟨0x2A, true⟩ }).reg 1 = 0x2A := by decide
theorem test_ldStVx :
    let s := cpu ((at200 0xF018).setReg 0 2)
    s.st = ⟨2, true⟩ ∧ s.effects = [] ∧ s.soundActive = true := by decide
theorem test_stTick_last :
    let s := ev { at200 0 with st := ⟨1, true⟩ } .stTick
    s.st = ⟨0, false⟩ ∧ s.effects = [.playSound] := by decide
theorem test_dtTick_last : (ev { at200 0 with dt := ⟨1, true⟩ } .dtTick).dt = ⟨0, false⟩ := by decide

/-! ### Display (V-DS-1 to V-DS-13) -/

/-- V-DS-1: one sprite row 0x81 at I = 0x300, drawn at (62, 31). -/
def sprite81 : State :=
  ((({ at200 0xD011 with index := 0x0300 } : State).memWrite 0x300 0x81).setReg 0 62).setReg 1 31

theorem test_drw_wraps :
    let s := cpu sprite81
    s.getCell 62 31 = true ∧ s.getCell 5 31 = true ∧ s.getCell 63 31 = false ∧ s.reg 15 = 0 ∧
      s.effects = [.displayChanged] := by decide
theorem test_drw_twice :
    let s := cpu { cpu sprite81 with pc := 0x0200 }
    s.getCell 62 31 = false ∧ s.getCell 5 31 = false ∧ s.reg 15 = 1 := by decide
theorem test_cls :
    let s := cpu { cpu sprite81 with mem := (at200 0x00E0).mem, pc := 0x0200 }
    s.getCell 62 31 = false ∧ s.effects = [.displayChanged, .displayChanged] := by decide
theorem test_getCell_outside : State.reset.getCell 64 0 = false ∧ State.reset.getCell 0 32 = false := by decide

/-! ### Reset and load (V-RS-1 to V-RS-7) -/

theorem test_reset :
    State.reset.runState = .stopped ∧ State.reset.pc = 0x0200 ∧ State.reset.memRead 0x04B = 0xF0 ∧
      State.reset.memRead 0x04F = 0x80 ∧ State.reset.memRead 0x050 = 0 := by decide
theorem test_loadProgram :
    let s := ev ((stackOf 3 (cpu (at200 0x0000))).setReg 0 0x55) (.loadProgram [0x12, 0x00])
    s.runState = .running ∧ s.reg 0 = 0 ∧ s.stack = [] ∧ s.pc = 0x0200 ∧ s.memRead 0x200 = 0x12 ∧
      s.memRead 0x202 = 0 ∧ s.memRead 0x000 = 0xF0 := by decide
theorem test_loadFailure :
    let s := ev (at200 0x6005) .loadFailure
    s.runState = .stopped ∧ s.effects = [.loadFailed] ∧ s.memRead 0x200 = 0x60 := by decide
theorem test_script_order :
    let s := { at200 0xF30A with script := [.cpuStep 0, .keyDown 0xB] }
    (after s (step (after s (step s)))).reg 3 = 0xB := by decide

/-! ### Witnesses: the hypotheses of each statement are met -/

theorem witness_AddRegistersSetsCarry : (0 : Reg) ≠ 15 ∧ (14 : Reg) ≠ 15 := by decide
theorem witness_SubtractionsSetNotBorrow : (0 : Reg) ≠ 15 ∧ (14 : Reg) ≠ 15 := by decide
theorem witness_ShiftsMoveOneBitIntoVF : (0 : Reg) ≠ 15 ∧ (14 : Reg) ≠ 15 := by decide
theorem witness_KeySkipsSampleLowNibble :
    (((at200 0).setReg 0 0xFF).reg 0).toNat % 16 = (15 : KeyCode).val ∧
    (((at200 0).setReg 0 0xF0).reg 0).toNat % 16 = (0 : KeyCode).val := by decide
theorem witness_CallPushesOrOverflows_pushes :
    (stackOf 15 (cpu (at200 0x6005))).pc = 0x0200 + 2 ∧
    (stackOf 15 (cpu (at200 0x6005))).stack.length ≠ 16 := by decide
theorem witness_CallPushesOrOverflows_overflows :
    (stackOf 16 (cpu (at200 0x6005))).pc = 0x0200 + 2 ∧
    (stackOf 16 (cpu (at200 0x6005))).stack.length = 16 := by decide
theorem witness_ReturnPopsOrUnderflows_pops :
    (stackOf 16 (at200 0)).stack = List.replicate 15 0x0300 ++ [0x0300] ∧
    (stackOf 1 (at200 0)).stack = [] ++ [0x0300] := by decide
theorem witness_ReturnPopsOrUnderflows_underflows :
    (cpu (at200 0x6005)).stack = [] ∧ (cpu (at200 0x6005)).pc = 0x0200 + 2 := by decide
theorem witness_DigitsStoredAtI :
    let s := { at200 0xF033 with index := 0xFFFF }
    s.mem.wf ∧ ∀ b ∈ [s.effAddr 0, s.effAddr 1, s.effAddr 2], 2 % 4096 ≠ b % 4096 := by decide
theorem witness_SaveStoresV0ToVx :
    let s := { at200 0xFF55 with index := 0xFFFF }
    s.mem.wf ∧ (15 : Reg) ≤ 15 ∧ (0 : Reg) ≤ 0 ∧
    ∀ b ∈ (List.range ((15 : Reg).val + 1)).map s.effAddr, 15 % 4096 ≠ b % 4096 := by decide
theorem witness_SavedBlockRestores : (at200 0xFF65).mem.wf := by decide
theorem witness_KeyWaitSuspends :
    (∀ k, Event.dtTick ≠ .keyDown k) ∧ (∀ bytes, Event.dtTick ≠ .loadProgram bytes) ∧
    Event.dtTick ≠ .loadFailure := ⟨nofun, nofun, nofun⟩
theorem witness_DrawXorsSpriteAndDetectsCollision : 63 < 64 ∧ 31 < 32 := by decide
theorem witness_DrawTwiceRestoresGrid : (0 : Reg) ≠ 15 ∧ (14 : Reg) ≠ 15 := by decide
theorem witness_PortsReadState_inside : 0 < 64 ∧ 63 < 64 ∧ 0 < 32 ∧ 31 < 32 := by decide
theorem witness_PortsReadState_outside : (64 ≤ 64 ∨ 32 ≤ 0) ∧ (64 ≤ 0 ∨ 32 ≤ 32) := by decide
/-- The invariant with a sounding timer: the hypothesis of the last clause of PortsReadState. -/
theorem witness_PortsReadState_invariant :
    State.Inv { at200 0x6005 with st := ⟨2, true⟩ } :=
  ⟨by decide, by decide, by decide, by decide, nofun⟩
theorem witness_WriteThenReadIsMasked : (at200 0x6005).mem.wf := by decide
theorem witness_LoaderCopiesBytes :
    Memory.wf State.reset.mem ∧ [0x12#8, 0x00#8].length ≤ 3584 ∧
    (∀ i, i < 2 → 0x202 % 4096 ≠ (0x200 + i) % 4096) ∧
    ∀ i, i < 2 → 0x1FF % 4096 ≠ (0x200 + i) % 4096 := by decide
theorem witness_LoaderCopiesBytes_longest : (List.replicate 3584 0xFF#8).length ≤ 3584 := by
  rw [List.length_replicate]
theorem witness_StoreIsSeenByNextFetch :
    let s := { at200 0xFF55 with pc := 0xFFFF, index := 0xFFF1 }
    s.mem.wf ∧ 14 + 1 ≤ (15 : Reg).val ∧ s.pc.toNat = s.index.toNat + 14 := by decide
theorem witness_OnlyStoresWriteMemory_instruction :
    (∃ t, exec (.ldVxMem 15) (at200 0) = .next t) ∧ (∀ x, Instr.ldVxMem 15 ≠ .ldBVx x) ∧
    ∀ x, Instr.ldVxMem 15 ≠ .ldMemVx x := ⟨⟨_, rfl⟩, nofun, nofun⟩
theorem witness_OnlyStoresWriteMemory_event :
    (∃ t, (at200 0).deliver (.cpuStep 0) = .next t) ∧ decode (at200 0).fetchWord = .error .unknownClass0 ∧
    ∀ bytes, Event.cpuStep 0 ≠ .loadProgram bytes := ⟨⟨_, rfl⟩, by decide, nofun⟩
theorem witness_EncodeOfDecode : decode 0xFF65 = .ok (.ldVxMem 15) := by decide
theorem witness_DecodeFollowsTable :
    decode 0x8AFE = .ok (.shl 0xA 0xF) ∧ ⟨0xF00F, 0x800E⟩ ∈ opcodeTable := by decide
theorem witness_StepRunsDecodedInstruction :
    let s := { at200 0x6005 with script := [.cpuStep 0, .dtTick] }
    s.runState = .running ∧ decode s.fetchWord = .ok (.ldByte 0 5) ∧ s.script = .cpuStep 0 :: [.dtTick] := by
  decide
theorem witness_StepRunsDecodedInstruction_noScript :
    (at200 0x6005).runState = .running ∧ decode (at200 0x6005).fetchWord = .ok (.ldByte 0 5) ∧
    (at200 0x6005).script = [] := by decide
theorem witness_UnknownOpcodeHalts :
    (at200 0xFFFF).runState = .running ∧ decode (at200 0xFFFF).fetchWord = .error .unknownClassF := by decide
theorem witness_CpuStepsDoNothingUnlessRunning :
    State.reset.runState ≠ .running ∧ (cpu (at200 0)).runState ≠ .running ∧
    (cpu (at200 0xF30A)).runState ≠ .running := by decide
theorem witness_OnlyFlagInstructionsWriteVF :
    setsFlag (.addReg 15 0) = true ∧
    setsFlag (.ldVxMem 14) = false ∧ loadsReg 15 (.ldVxMem 14) = false := by decide
theorem witness_RegistersOutsideDestinationKept :
    loadsReg 2 (.addReg 1 0) = false ∧ (setsFlag (.addReg 1 0) = true → (2 : Reg) ≠ 15) ∧
    loadsReg 15 (.ldVxMem 14) = false ∧ (setsFlag (.ldVxMem 14) = true → (15 : Reg) ≠ 15) := by decide
theorem witness_TimersAreIndependent_instruction :
    (∃ t, exec (.ldStVx 0) (at200 0) = .next t) ∧ ∀ x, Instr.ldStVx 0 ≠ .ldDtVx x := ⟨⟨_, rfl⟩, nofun⟩
theorem witness_TimersAreIndependent_event :
    (∃ t, (at200 0xF018).deliver (.cpuStep 0) = .next t) ∧ (∀ bytes, Event.cpuStep 0 ≠ .loadProgram bytes) ∧
    Event.cpuStep 0 ≠ .dtTick ∧ ∀ r x, Event.cpuStep 0 = .cpuStep r →
      decode (at200 0xF018).fetchWord ≠ .ok (.ldDtVx x) := by
  refine ⟨⟨_, rfl⟩, nofun, nofun, fun _ x _ h => ?_⟩
  have e : decode (at200 0xF018).fetchWord = .ok (.ldStVx 0) := by decide
  exact nomatch e.symm.trans h
theorem witness_DisplayChangedOnlyFromDisplay :
    Instr.addIVx 0 ≠ .cls ∧ (∀ x y n, Instr.addIVx 0 ≠ .drw x y n) ∧
    (∀ r i, Event.dtTick = .cpuStep r → (at200 0).runState = .running → decode (at200 0).fetchWord ≠ .ok i) :=
  ⟨nofun, nofun, nofun⟩
theorem witness_KeyEventsSetSlots_waiting :
    (cpu (at200 0xFF0A)).runState = .waitingForKey 15 ∧ (0 : KeyCode) ≠ 15 := by decide
theorem witness_KeyEventsSetSlots_running : ∀ x, (at200 0).runState ≠ .waitingForKey x := nofun
theorem witness_TimerStepCountsDown :
    State.reset.dt.running = false ∧ State.reset.st.running = false ∧
    (cpu ((at200 0xF015).setReg 0 1)).dt.running = true ∧
    (cpu ((at200 0xF018).setReg 0 0xFF)).st.running = true := by decide
theorem witness_CountdownTakesNTicks :
    0 < (((at200 0xF015).setReg 0 1).reg 0).toNat ∧ 0 < (((at200 0xF015).setReg 0 0xFF).reg 0).toNat := by decide
theorem witness_SoundPlaysForNTicks :
    0 < (((at200 0xF018).setReg 0 1).reg 0).toNat ∧ 0 < (((at200 0xF018).setReg 0 0xFF).reg 0).toNat := by decide
theorem witness_LoadProgramResetsEverything :
    ([] : List Byte).length ≤ 3584 ∧ 0x1FF < 4096 ∧ (0x1FF < 0x200 ∨ 0x200 + 0 ≤ 0x1FF) ∧
    4095 < 4096 ∧ (4095 < 0x200 ∨ 0x200 + 3583 ≤ 4095) := by decide
theorem witness_FailedLoadStops : 3584 < (List.replicate 3585 0xFF#8).length := by
  rw [List.length_replicate]; decide
theorem witness_PowerOnState : 79 < 80 ∧ 80 ≤ 80 ∧ 80 < 4096 ∧ 80 ≤ 4095 ∧ 4095 < 4096 := by decide
theorem witness_EventsNeverRedirectPc :
    (∃ t, (cpu (at200 0xF30A)).deliver (.keyDown 0) = .next t) ∧ (∀ r, Event.keyDown 0 ≠ .cpuStep r) ∧
    (∀ bytes, Event.keyDown 0 ≠ .loadProgram bytes) ∧
    (cpu (at200 0xF30A)).runState ≠ .waitingForKey 4 := ⟨⟨_, rfl⟩, nofun, nofun, by decide⟩
theorem witness_HaltedIsSticky :
    (cpu (at200 0)).runState = .halted ⟨.unknownOpcode, 0x0200, 0x0000⟩ := by decide
theorem witness_FaultsArePrecise :
    (at200 0x00EE).runState = .running ∧ (at200 0x00EE).deliver (.cpuStep 0) = .next (cpu (at200 0x00EE)) ∧
    (cpu (at200 0x00EE)).runState = .halted ⟨.stackUnderflow, 0x0200, 0x00EE⟩ :=
  ⟨by decide, rfl, by decide⟩
theorem witness_FaultsArePrecise_overflow :
    (stackOf 16 (at200 0x2ABC)).runState = .running ∧
    (stackOf 16 (at200 0x2ABC)).deliver (.cpuStep 0) = .next (cpu (stackOf 16 (at200 0x2ABC))) ∧
    (cpu (stackOf 16 (at200 0x2ABC))).runState = .halted ⟨.stackOverflow, 0x0200, 0x2ABC⟩ :=
  ⟨by decide, rfl, by decide⟩
theorem witness_FaultsArePrecise_unknown :
    (at200 0).runState = .running ∧ (at200 0).deliver (.cpuStep 0) = .next (cpu (at200 0)) ∧
    (cpu (at200 0)).runState = .halted ⟨.unknownOpcode, 0x0200, 0x0000⟩ := ⟨by decide, rfl, by decide⟩
theorem witness_RunStateIsEnteredByTable_stopped :
    (ev (at200 0) .loadFailure).runState ≠ (at200 0).runState ∧
    (ev (at200 0) .loadFailure).runState = .stopped := by decide
theorem witness_RunStateIsEnteredByTable_running :
    (ev (cpu (at200 0xF30A)) (.keyDown 4)).runState ≠ (cpu (at200 0xF30A)).runState ∧
    (ev (cpu (at200 0xF30A)) (.keyDown 4)).runState = .running := by decide
theorem witness_RunStateIsEnteredByTable_waiting :
    (cpu (at200 0xFF0A)).runState ≠ (at200 0xFF0A).runState ∧
    (cpu (at200 0xFF0A)).runState = .waitingForKey 15 := by decide
theorem witness_RunStateIsEnteredByTable_halted :
    (cpu (at200 0)).runState ≠ (at200 0).runState ∧
    (cpu (at200 0)).runState = .halted ⟨.unknownOpcode, 0x0200, 0x0000⟩ := by decide
/-- A halted state that meets the invariant, its record included. -/
theorem witness_EveryStepKeepsInvariant :
    State.Inv (stackOf 16 (cpu (stackOf 16 (at200 0x2ABC)))) ∧
    ∃ t, step (stackOf 16 (cpu (stackOf 16 (at200 0x2ABC)))) = .next t := by
  refine ⟨⟨by decide, by decide, by decide, by decide, fun r h => ?_⟩, ⟨_, rfl⟩⟩
  have e : (stackOf 16 (cpu (stackOf 16 (at200 0x2ABC)))).runState =
      .halted ⟨.stackOverflow, 0x0200, 0x2ABC⟩ := by decide
  cases e.symm.trans h
  exact ⟨by decide, by decide, nofun, nofun⟩

end Sys2Proof.Tests
end

section
/-!
PROOFS. The statements of 20_memory.md about the fetch (R64) and about who writes memory (R68).
-/

namespace Sys2Proof.Machine

/-! ### The fetch (R63, R64) -/

/-- The first byte of a word is its high-order byte. -/
theorem toNat_wordOfBytes (hi lo : Byte) : (wordOfBytes hi lo).toNat = hi.toNat * 256 + lo.toNat := by
  rw [wordOfBytes, BitVec.toNat_append, ← Nat.shiftLeft_add_eq_or_of_lt lo.isLt, Nat.shiftLeft_eq]

/-- Masking an address before a read changes nothing: the read port masks it itself. -/
theorem State.memRead_mod (s : State) (a : Nat) : s.memRead (a % 4096) = s.memRead a :=
  congrArg s.mem.cell (Nat.mod_mod a 4096)

/-- Settles O30: the word is built high byte first, and the read port masks each address by itself. -/
theorem fetchIsBigEndian : Obligations.FetchIsBigEndian := by
  intro s
  rw [State.fetchWord, toNat_wordOfBytes, State.memRead_mod, State.memRead_mod]

/-! ### Who writes memory (R68) -/

/-- Equal memories read the same at every address. -/
theorem sameMemory_of_mem_eq {s t : State} (h : t.mem = s.mem) : SameMemory s t :=
  fun a => congrArg (·.read a) h

/-- Every instruction but the two stores leaves memory as it is. -/
theorem exec_mem_of_not_store {i : Instr} {s t : State} (h : exec i s = .next t)
    (hB : ∀ x, i ≠ .ldBVx x) (hM : ∀ x, i ≠ .ldMemVx x) : t.mem = s.mem := by
  cases i with
  | ldBVx x => exact absurd rfl (hB x)
  | ldMemVx x => exact absurd rfl (hM x)
  | ldVxMem x => cases h; rw [(s.restoreRegs_onlyRegs _).1]
  | call nnn => rcases exec_call_cases nnn s with ⟨-, e⟩ | ⟨-, e⟩ <;> rw [e] at h <;> cases h <;> rfl
  | ret => rcases exec_ret_cases s with ⟨-, e⟩ | ⟨_, _, -, e⟩ <;> rw [e] at h <;> cases h <;> rfl
  | seByte | sneByte | seReg | sneReg | skp | sknp => cases h; rw [State.skipIf_eq]
  | _ => cases h; rfl

/-- A CpuStep that executes no instruction leaves memory as it is. -/
theorem State.cpuStep_mem_of_no_instr {r : Byte} {s t : State} (h : s.cpuStep r = .next t)
    (hno : ∀ i, s.runState = .running → decode s.fetchWord ≠ .ok i) : t.mem = s.mem := by
  rcases s.cpuStep_cases r with ⟨-, e⟩ | ⟨i, hrun, hi, -⟩ | ⟨_, -, -, e⟩
  · rw [e] at h; cases h; rfl
  · exact absurd hi (hno i hrun)
  · rw [e] at h; cases h; rfl

/-- A tick of the sound timer leaves memory as it is, whether it plays or not. -/
@[simp] theorem State.onStTick_mem (s : State) : s.onStTick.mem = s.mem := by
  unfold State.onStTick
  split <;> rfl

/-- A key going down leaves memory as it is, whether it ends a wait or not. -/
@[simp] theorem State.onKeyDown_mem (s : State) (k : KeyCode) : (s.onKeyDown k).mem = s.mem := by
  rcases s.onKeyDown_cases k with ⟨_, -, e⟩ | ⟨-, e⟩ <;> rw [e] <;> rfl

/-- Every event that executes no instruction, but a load, leaves memory as it is. -/
theorem State.deliver_mem_of_no_instr {e : Event} {s t : State} (h : s.deliver e = .next t)
    (hno : ∀ r i, e = .cpuStep r → s.runState = .running → decode s.fetchWord ≠ .ok i)
    (hload : ∀ bytes, e ≠ .loadProgram bytes) : t.mem = s.mem := by
  cases e with
  | cpuStep r => exact State.cpuStep_mem_of_no_instr h fun i => hno r i rfl
  | stTick => cases h; exact s.onStTick_mem
  | keyDown k => cases h; exact s.onKeyDown_mem k
  | loadProgram bytes => exact absurd rfl (hload bytes)
  | dtTick | keyUp | loadFailure => cases h; rfl

/-- Settles O33, by the instruction and by the event. -/
theorem onlyStoresWriteMemory : Obligations.OnlyStoresWriteMemory :=
  ⟨fun _ _ _ h hB hM => sameMemory_of_mem_eq (exec_mem_of_not_store h hB hM),
    fun _ _ _ h hno hload => sameMemory_of_mem_eq (State.deliver_mem_of_no_instr h hno hload)⟩

end Sys2Proof.Machine
end

section
/-!
PROOFS. The statements of 40_control_flow.md: the two jumps (R121, R123), CALL (R122, R241) and RET (R120, R242).
-/

namespace Sys2Proof.Machine

/-! ### The words of the jumps and the call (R94) -/

theorem decode_jp (nnn : BitVec 12) : decode (formatNNN 0x1 nnn) = .ok (.jp nnn) := by
  rw [decode, opField_formatNNN, nnnField_formatNNN]; rfl

theorem decode_call (nnn : BitVec 12) : decode (formatNNN 0x2 nnn) = .ok (.call nnn) := by
  rw [decode, opField_formatNNN, nnnField_formatNNN]; rfl

theorem decode_jpV0 (nnn : BitVec 12) : decode (formatNNN 0xB nnn) = .ok (.jpV0 nnn) := by
  rw [decode, opField_formatNNN, nnnField_formatNNN]; rfl

/-! ### Addresses and bytes widened to 16 bits -/

/-- An `nnn` address keeps its value as a 16-bit address. -/
@[simp] theorem toNat_addr16 (nnn : BitVec 12) : (addr16 nnn).toNat = nnn.toNat :=
  BitVec.toNat_setWidth_of_le (by decide)

/-- A byte keeps its value in 16 bits. -/
@[simp] theorem toNat_byte16 (b : Byte) : (byte16 b).toNat = b.toNat :=
  BitVec.toNat_setWidth_of_le (by decide)

/-! ### CALL (R122, R241) -/

/-- Settles O14, by whether the stack is full. -/
theorem callPushesOrOverflows : Obligations.CallPushesOrOverflows := by
  intro nnn a s hpc
  refine ⟨decode_call nnn, ?_⟩
  rcases exec_call_cases nnn s with ⟨hfull, e⟩ | ⟨hroom, e⟩
  · refine ⟨fun h => absurd hfull h, fun _ => ?_⟩
    rw [e, State.raiseFault_eq, s.fetchAddr_of_pc hpc, ← hpc]
    rfl
  · refine ⟨fun _ => ⟨_, e, toNat_addr16 nnn, ?_⟩, fun h => absurd h hroom⟩
    rw [hpc]

/-! ### JP and JP V0 (R121, R123) -/

/-- Settles O13: the address keeps its 12-bit value, and the sum with V0 is the one of 16-bit words. -/
theorem jumpsSetPc : Obligations.JumpsSetPc := by
  intro nnn s
  refine ⟨⟨decode_jp nnn, _, rfl, toNat_addr16 nnn, rfl⟩, decode_jpV0 nnn, _, rfl, ?_, rfl⟩
  change (addr16 nnn + byte16 (s.reg 0)).toNat = _
  rw [BitVec.toNat_add, toNat_addr16, toNat_byte16]

/-! ### RET (R120, R242) -/

/-- Settles O15, by whether the stack is empty. -/
theorem returnPopsOrUnderflows : Obligations.ReturnPopsOrUnderflows := by
  refine ⟨rfl, fun rest target s hs => ?_, fun a s hs hpc => ?_⟩
  · rcases exec_ret_cases s with ⟨hempty, -⟩ | ⟨rest', target', hs', e⟩
    · simp [hempty] at hs
    · obtain ⟨rfl, rfl⟩ := List.append_singleton_inj.1 (hs'.symm.trans hs)
      exact e
  · rcases exec_ret_cases s with ⟨-, e⟩ | ⟨rest', target', hs', -⟩
    · rw [e, State.raiseFault_eq, s.fetchAddr_of_pc hpc]
      rfl
    · simp [hs] at hs'

end Sys2Proof.Machine
end

section
/-!
PROOFS. The statements of 41_skips.md: SE and SNE on a byte (R130, R131) and on registers (R132, R133).
-/

namespace Sys2Proof.Machine

/-! ### The words of the skips (R94) -/

theorem decode_seByte (x : Reg) (kk : Byte) : decode (formatXKK 0x3 x kk) = .ok (.seByte x kk) := by
  rw [decode, opField_formatXKK, xField_formatXKK, kkField_formatXKK]; rfl

theorem decode_sneByte (x : Reg) (kk : Byte) : decode (formatXKK 0x4 x kk) = .ok (.sneByte x kk) := by
  rw [decode, opField_formatXKK, xField_formatXKK, kkField_formatXKK]; rfl

theorem decode_seReg (x y : Reg) : decode (formatXYN 0x5 x y 0x0) = .ok (.seReg x y) := by
  rw [decode, opField_formatXYN, xField_formatXYN, yField_formatXYN, nField_formatXYN]; rfl

theorem decode_sneReg (x y : Reg) : decode (formatXYN 0x9 x y 0x0) = .ok (.sneReg x y) := by
  rw [decode, opField_formatXYN, xField_formatXYN, yField_formatXYN, nField_formatXYN]; rfl

/-! ### The skip on a comparison of two bytes -/

/-- A skip on equal bytes moves PC exactly where their values are equal. -/
theorem State.skipIf_beq (s : State) (a b : Byte) :
    s.skipIf (a == b) = { s with pc := if a.toNat = b.toNat then s.pc + 2 else s.pc } := by
  simp only [State.skipIf_eq, beq_iff_eq, BitVec.toNat_inj]

/-- A skip on unequal bytes moves PC exactly where their values differ. -/
theorem State.skipIf_bne (s : State) (a b : Byte) :
    s.skipIf (a != b) = { s with pc := if a.toNat = b.toNat then s.pc else s.pc + 2 } := by
  simp only [State.skipIf_eq, bne_iff_ne, ne_eq, ite_not, BitVec.toNat_inj]

/-! ### SE and SNE -/

theorem exec_seByte (x : Reg) (kk : Byte) (s : State) : exec (.seByte x kk) s =
    .next { s with pc := if (s.reg x).toNat = kk.toNat then s.pc + 2 else s.pc } :=
  congrArg Host.Outcome.next (s.skipIf_beq (s.reg x) kk)

theorem exec_sneByte (x : Reg) (kk : Byte) (s : State) : exec (.sneByte x kk) s =
    .next { s with pc := if (s.reg x).toNat = kk.toNat then s.pc else s.pc + 2 } :=
  congrArg Host.Outcome.next (s.skipIf_bne (s.reg x) kk)

theorem exec_seReg (x y : Reg) (s : State) : exec (.seReg x y) s =
    .next { s with pc := if (s.reg x).toNat = (s.reg y).toNat then s.pc + 2 else s.pc } :=
  congrArg Host.Outcome.next (s.skipIf_beq (s.reg x) (s.reg y))

theorem exec_sneReg (x y : Reg) (s : State) : exec (.sneReg x y) s =
    .next { s with pc := if (s.reg x).toNat = (s.reg y).toNat then s.pc else s.pc + 2 } :=
  congrArg Host.Outcome.next (s.skipIf_bne (s.reg x) (s.reg y))

/-- Settles O10: both are the skip on a comparison of Vx with the byte. -/
theorem byteSkipsMovePc : Obligations.ByteSkipsMovePc := fun x kk s =>
  ⟨⟨decode_seByte x kk, exec_seByte x kk s⟩, decode_sneByte x kk, exec_sneByte x kk s⟩

/-- Settles O11: both are the skip on a comparison of Vx with Vy, and a register equals itself. -/
theorem registerSkipsMovePc : Obligations.RegisterSkipsMovePc := by
  intro x y s
  refine ⟨⟨decode_seReg x y, exec_seReg x y s⟩, ⟨decode_sneReg x y, exec_sneReg x y s⟩, ?_, ?_⟩
  · rw [exec_seReg, if_pos rfl]
  · rw [exec_sneReg, if_pos rfl]

end Sys2Proof.Machine
end

section
/-!
PROOFS. The statements of 42_loads.md: LD Vx, byte (R140), LD Vx, Vy (R141) and LD I, addr (R142).
-/

namespace Sys2Proof.Machine

/-! ### The words of the loads (R94) -/

theorem decode_ldByte (x : Reg) (kk : Byte) : decode (formatXKK 0x6 x kk) = .ok (.ldByte x kk) := by
  rw [decode, opField_formatXKK, xField_formatXKK, kkField_formatXKK]; rfl

theorem decode_ldReg (x y : Reg) : decode (formatXYN 0x8 x y 0x0) = .ok (.ldReg x y) := by
  rw [decode, opField_formatXYN, xField_formatXYN, yField_formatXYN, nField_formatXYN]; rfl

theorem decode_ldI (nnn : BitVec 12) : decode (formatNNN 0xA nnn) = .ok (.ldI nnn) := by
  rw [decode, opField_formatNNN, nnnField_formatNNN]; rfl

/-! ### What one register write leaves -/

/-- The register written reads the byte written. -/
@[simp] theorem State.reg_setReg_self (s : State) (x : Reg) (u : Byte) : (s.setReg x u).reg x = u :=
  (s.reg_setReg x x u).trans (if_pos rfl)

/-- Every register but the one written is as before. -/
theorem State.sameRegsBut_setReg (s : State) (x : Reg) (u : Byte) : SameRegsBut [x] s (s.setReg x u) :=
  fun r hr => (s.reg_setReg x r u).trans (if_neg (List.ne_of_not_mem_cons hr))

/-! ### The loads -/

/-- Settles O1: the load is one write of Vx, whichever register x names. -/
theorem loadByteWritesOnlyVx : Obligations.LoadByteWritesOnlyVx := fun x kk s =>
  ⟨decode_ldByte x kk, s.setReg x kk, rfl,
    s.reg_setReg_self x kk, s.sameRegsBut_setReg x kk, s.onlyRegs_setReg x kk⟩

/-- Settles O2: the copy is one write of Vx with the old Vy, whether or not x and y are equal. -/
theorem loadRegisterCopiesVy : Obligations.LoadRegisterCopiesVy := fun x y s =>
  ⟨decode_ldReg x y, s.setReg x (s.reg y), rfl,
    s.reg_setReg_self x (s.reg y), s.sameRegsBut_setReg x (s.reg y), s.onlyRegs_setReg x (s.reg y)⟩

/-- Settles O3: the 12-bit address keeps its value as I, and memory is not written. -/
theorem loadIndexSetsI : Obligations.LoadIndexSetsI := fun nnn s =>
  ⟨decode_ldI nnn, { s with index := addr16 nnn }, rfl,
    toNat_addr16 nnn, rfl, sameMemory_of_mem_eq rfl⟩

end Sys2Proof.Machine
end

section
/-!
PROOFS. The statements of 43_arithmetic_logic.md: ADD Vx, byte (R150), the bitwise operations (R151 to R153),
ADD, SUB and SUBN on registers (R154, R155, R157) and the shifts (R156, R158).
-/

namespace Sys2Proof.Machine

/-! ### The words of the arithmetic instructions (R94) -/

theorem decode_addByte (x : Reg) (kk : Byte) : decode (formatXKK 0x7 x kk) = .ok (.addByte x kk) := by
  rw [decode, opField_formatXKK, xField_formatXKK, kkField_formatXKK]; rfl

/-- A word of class 8 is decoded by its function code alone. -/
theorem decode_class8 (x y : Reg) (n : BitVec 4) : decode (formatXYN 0x8 x y n) = decodeClass8 x y n := by
  rw [decode, opField_formatXYN, xField_formatXYN, yField_formatXYN, nField_formatXYN]; rfl

/-! ### The flags (R160, R161) -/

/-- The flag of a condition is 1 where it holds and 0 elsewhere. -/
theorem flagByte_decide (p : Prop) [Decidable p] : flagByte (decide p) = if p then 1 else 0 := by
  simp only [flagByte, decide_eq_true_eq]

theorem flagByte_carryOf (a b : Byte) :
    flagByte (carryOf a b) = if a.toNat + b.toNat > 255 then 1 else 0 := flagByte_decide _

theorem flagByte_noBorrow (a b : Byte) :
    flagByte (noBorrow a b) = if a.toNat ≥ b.toNat then 1 else 0 := flagByte_decide _

/-- A flag that is bit `i` of a byte has that binary digit of the byte as its value. -/
theorem toNat_flagByte_getLsbD (u : Byte) (i : Nat) :
    (flagByte (u.getLsbD i)).toNat = u.toNat / 2 ^ i % 2 := by
  rw [← Nat.toNat_testBit, ← BitVec.getLsbD]
  cases u.getLsbD i <;> rfl

/-! ### What a result with its flag leaves -/

/-- VF holds the flag, where x = F too: the flag is written last. -/
theorem State.reg_setRegAndFlag_regF (s : State) (x : Reg) (u : Byte) (b : Bool) :
    (s.setRegAndFlag x u b).reg regF = flagByte b :=
  (s.reg_setRegAndFlag x regF u b).trans (if_pos rfl)

/-- Vx holds the result unless x = F. -/
theorem State.reg_setRegAndFlag_self (s : State) {x : Reg} (hx : x ≠ regF) (u : Byte) (b : Bool) :
    (s.setRegAndFlag x u b).reg x = u :=
  (s.reg_setRegAndFlag x x u b).trans ((if_neg hx).trans (if_pos rfl))

/-- Every register but Vx and VF is as before. -/
theorem State.sameRegsBut_setRegAndFlag (s : State) (x : Reg) (u : Byte) (b : Bool) :
    SameRegsBut [x, regF] s (s.setRegAndFlag x u b) := by
  intro r hr
  obtain ⟨hx, hF⟩ : r ≠ x ∧ r ≠ regF := by simpa using hr
  rw [State.reg_setRegAndFlag, if_neg hF, if_neg hx]

/-! ### ADD Vx, byte and the bitwise operations -/

/-- Settles O4: the instruction is one write of Vx, whichever register x names. -/
theorem addByteWrapsWithoutCarry : Obligations.AddByteWrapsWithoutCarry := fun x kk s =>
  ⟨decode_addByte x kk, s.setReg x (s.reg x + kk), rfl,
    by rw [s.reg_setReg_self, BitVec.toNat_add], s.sameRegsBut_setReg x _, s.onlyRegs_setReg x _⟩

/-- Settles O5: each operation is one write of Vx, and acts on every bit alone. -/
theorem logicIsBitwiseAndKeepsVF : Obligations.LogicIsBitwiseAndKeepsVF := fun x y s =>
  ⟨⟨decode_class8 x y 0x1, _, rfl, fun k => by rw [s.reg_setReg_self, BitVec.getLsbD_or],
      s.sameRegsBut_setReg x _, s.onlyRegs_setReg x _⟩,
    ⟨decode_class8 x y 0x2, _, rfl, fun k => by rw [s.reg_setReg_self, BitVec.getLsbD_and],
      s.sameRegsBut_setReg x _, s.onlyRegs_setReg x _⟩,
    ⟨decode_class8 x y 0x3, _, rfl, fun k => by rw [s.reg_setReg_self, BitVec.getLsbD_xor],
      s.sameRegsBut_setReg x _, s.onlyRegs_setReg x _⟩⟩

/-! ### ADD, SUB and SUBN on registers -/

/-- Settles O6: the old values' sum and its carry, the carry written last. -/
theorem addRegistersSetsCarry : Obligations.AddRegistersSetsCarry := fun x y s =>
  ⟨decode_class8 x y 0x4, _, rfl,
    fun hx => by rw [s.reg_setRegAndFlag_self hx, BitVec.toNat_add],
    by rw [s.reg_setRegAndFlag_regF, flagByte_carryOf],
    s.sameRegsBut_setRegAndFlag x _ _, s.onlyRegs_setRegAndFlag x _ _⟩

/-- The difference of two bytes modulo 256, the borrow added before the subtraction. -/
theorem toNat_sub_byte (a b : Byte) : (a - b).toNat = (256 + a.toNat - b.toNat) % 256 := by
  have hb := b.isLt
  rw [BitVec.toNat_sub]
  omega

/-- Settles O7: the two differ in which operand is the minuend, and equal operands do not borrow. -/
theorem subtractionsSetNotBorrow : Obligations.SubtractionsSetNotBorrow := fun x y s =>
  ⟨⟨decode_class8 x y 0x5, _, rfl,
      fun hx => by rw [s.reg_setRegAndFlag_self hx, toNat_sub_byte],
      by rw [s.reg_setRegAndFlag_regF, flagByte_noBorrow],
      s.sameRegsBut_setRegAndFlag x _ _, s.onlyRegs_setRegAndFlag x _ _⟩,
    ⟨decode_class8 x y 0x7, _, rfl,
      fun hx => by rw [s.reg_setRegAndFlag_self hx, toNat_sub_byte],
      by rw [s.reg_setRegAndFlag_regF, flagByte_noBorrow],
      s.sameRegsBut_setRegAndFlag x _ _, s.onlyRegs_setRegAndFlag x _ _⟩⟩

/-! ### SHR and SHL (R162) -/

theorem toNat_shiftRight_one (u : Byte) : (u >>> 1).toNat = u.toNat / 2 := by
  rw [BitVec.toNat_ushiftRight, Nat.shiftRight_one]

theorem toNat_shiftLeft_one (u : Byte) : (u <<< 1).toNat = 2 * u.toNat % 256 := by
  rw [BitVec.toNat_shiftLeft, Nat.shiftLeft_eq, Nat.mul_comm]

/-- Bit 0 is the remainder modulo 2. -/
theorem toNat_flagByte_bit0 (u : Byte) : (flagByte (u.getLsbD 0)).toNat = u.toNat % 2 := by
  rw [toNat_flagByte_getLsbD, Nat.pow_zero, Nat.div_one]

/-- Bit 7 is the quotient by 128: a byte has no digit above it. -/
theorem toNat_flagByte_bit7 (u : Byte) : (flagByte (u.getLsbD 7)).toNat = u.toNat / 128 := by
  have hu := u.isLt
  rw [toNat_flagByte_getLsbD]
  omega

/-- Settles O8: both shift the old Vx, and the bit shifted out is written last. -/
theorem shiftsMoveOneBitIntoVF : Obligations.ShiftsMoveOneBitIntoVF := fun x y s =>
  ⟨⟨decode_class8 x y 0x6, _, rfl,
      fun hx => by rw [s.reg_setRegAndFlag_self hx, toNat_shiftRight_one],
      by rw [s.reg_setRegAndFlag_regF, toNat_flagByte_bit0],
      s.sameRegsBut_setRegAndFlag x _ _, s.onlyRegs_setRegAndFlag x _ _⟩,
    ⟨decode_class8 x y 0xE, _, rfl,
      fun hx => by rw [s.reg_setRegAndFlag_self hx, toNat_shiftLeft_one],
      by rw [s.reg_setRegAndFlag_regF, toNat_flagByte_bit7],
      s.sameRegsBut_setRegAndFlag x _ _, s.onlyRegs_setRegAndFlag x _ _⟩⟩

end Sys2Proof.Machine
end

section
/-!
PROOFS. The statement of 44_random.md: RND Vx, byte (R170).
-/

namespace Sys2Proof.Machine

/-- The word of RND (R94). -/
theorem decode_rnd (x : Reg) (kk : Byte) : decode (formatXKK 0xC x kk) = .ok (.rnd x kk) := by
  rw [decode, opField_formatXKK, xField_formatXKK, kkField_formatXKK]; rfl

/-- A masked byte has no bit outside its mask. -/
theorem and_and_not_mask (u mask : Byte) : u &&& mask &&& ~~~mask = 0 := by
  rw [BitVec.and_assoc, BitVec.and_not_self]
  exact BitVec.and_zero

/-- Settles O9: RND is one write of Vx, with the masked draw; every register reads the same whatever the draw. -/
theorem randomIsMaskedDraw : Obligations.RandomIsMaskedDraw := fun x kk r s =>
  let s' : State := { s with draw := r }
  ⟨decode_rnd x kk, s'.setReg x (r &&& kk), rfl,
    fun k => by rw [s'.reg_setReg_self, BitVec.getLsbD_and],
    by rw [s'.reg_setReg_self, and_and_not_mask],
    s'.sameRegsBut_setReg x _, s'.onlyRegs_setReg x _⟩

end Sys2Proof.Machine
end

section
/-!
PROOFS. The statements of 45_index_and_memory.md: ADD I, Vx (R175), LD F, Vx (R176), LD B, Vx (R177) and the
block transfers LD [I], Vx (R178) and LD Vx, [I] (R179).
-/

namespace Sys2Proof.Machine

/-- A word of class F is decoded by its low byte alone (R94). -/
theorem decode_classF (x : Reg) (kk : Byte) : decode (formatXKK 0xF x kk) = decodeClassF x kk := by
  rw [decode, opField_formatXKK, xField_formatXKK, kkField_formatXKK]; rfl

/-! ### I (R175, R176) -/

/-- Settles O16: the sum is the one of 16-bit words, and only I is written. -/
theorem addIndexWrapsAt16Bits : Obligations.AddIndexWrapsAt16Bits := fun x s =>
  ⟨decode_classF x 0x1E, { s with index := s.index + byte16 (s.reg x) }, rfl,
    by rw [BitVec.toNat_add, toNat_byte16], rfl⟩

/-- The font starts at 0, and the address of its last glyph fits in I. -/
theorem toNat_glyphAddr (d : Fin 16) : (glyphAddr d).toNat = 0x000 + 5 * d.val := by
  have hd := d.isLt
  rw [glyphAddr, BitVec.toNat_ofNat, Config.fontBase, Config.fontGlyphBytes]
  omega

/-- Settles O17: the digit is the low nibble of Vx, and only I is written. -/
theorem fontPointsAtGlyph : Obligations.FontPointsAtGlyph := fun x s =>
  ⟨decode_classF x 0x29, { s with index := glyphAddr (lowNibble (s.reg x)) }, rfl,
    toNat_glyphAddr (lowNibble (s.reg x)), rfl⟩

/-! ### One store (R61, R62) -/

/-- The address written reads the byte written. -/
theorem State.memRead_memWrite_self {s : State} (h : s.mem.wf) (a : Nat) (u : Byte) :
    (s.memWrite a u).memRead a = u :=
  (s.memRead_memWrite h a a u).trans (if_pos rfl)

/-- An address that selects another cell than the one written reads as before. -/
theorem State.memRead_memWrite_of_ne {s : State} (h : s.mem.wf) {a b : Nat} (hne : cellOf b ≠ cellOf a)
    (u : Byte) : (s.memWrite a u).memRead b = s.memRead b :=
  (s.memRead_memWrite h a b u).trans (if_neg hne)

/-! ### LD B, Vx (R177) -/

/-- The three addresses of the digits select three cells, where I + k wraps too. -/
theorem State.cellOf_effAddr_ne (s : State) {j k : Nat} (hj : j < k) (hk : k < 3) :
    cellOf (s.effAddr j) ≠ cellOf (s.effAddr k) := by
  simp only [cellOf, State.effAddr, Config.memSize]
  omega

/-- Three bytes stored at I, I + 1 and I + 2 are read there, and every other cell reads as before. -/
theorem State.memRead_three_memWrites {s : State} (h : s.mem.wf) (u v w : Byte) :
    let t := ((s.memWrite (s.effAddr 0) u).memWrite (s.effAddr 1) v).memWrite (s.effAddr 2) w
    t.memRead (s.effAddr 0) = u ∧ t.memRead (s.effAddr 1) = v ∧ t.memRead (s.effAddr 2) = w ∧
      SameMemoryBut [s.effAddr 0, s.effAddr 1, s.effAddr 2] s t := by
  have h1 : (s.memWrite (s.effAddr 0) u).mem.wf := Memory.wf_write h _ _
  have h2 : ((s.memWrite (s.effAddr 0) u).memWrite (s.effAddr 1) v).mem.wf := Memory.wf_write h1 _ _
  refine ⟨?_, ?_, State.memRead_memWrite_self h2 _ w, fun a ha => ?_⟩
  · rw [State.memRead_memWrite_of_ne h2 (s.cellOf_effAddr_ne (by decide) (by decide)),
      State.memRead_memWrite_of_ne h1 (s.cellOf_effAddr_ne (by decide) (by decide)),
      State.memRead_memWrite_self h]
  · rw [State.memRead_memWrite_of_ne h2 (s.cellOf_effAddr_ne (by decide) (by decide)),
      State.memRead_memWrite_self h1]
  · rw [State.memRead_memWrite_of_ne h2 (ha _ (by simp)), State.memRead_memWrite_of_ne h1 (ha _ (by simp)),
      State.memRead_memWrite_of_ne h (ha _ (by simp))]

/-- Settles O18: the three stores go to three cells, and the digits are quotients and remainders of Vx. -/
theorem digitsStoredAtI : Obligations.DigitsStoredAtI := fun x s =>
  ⟨decode_classF x 0x33, _, rfl, rfl, fun h => by
    obtain ⟨hundreds, tens, ones, hrest⟩ :=
      State.memRead_three_memWrites h (s.reg x / 100) (s.reg x / 10 % 10) (s.reg x % 10)
    refine ⟨?_, ?_, ?_, hrest⟩
    · exact (congrArg BitVec.toNat hundreds).trans BitVec.toNat_udiv
    · exact (congrArg BitVec.toNat tens).trans
        (BitVec.toNat_umod.trans (congrArg (· % 10) BitVec.toNat_udiv))
    · exact (congrArg BitVec.toNat ones).trans BitVec.toNat_umod⟩

/-! ### The block transfers (R178, R179) -/

/-- A register is the one of its own number. -/
@[simp] theorem regOfNat_val (r : Reg) : regOfNat r.val = r :=
  Fin.ext (Nat.mod_eq_of_lt r.isLt)

/-- Settles O19: LD [I], Vx is the block save of x + 1 registers. -/
theorem saveStoresV0ToVx : Obligations.SaveStoresV0ToVx := fun x s =>
  ⟨decode_classF x 0x55, _, rfl, s.saveRegs_onlyMemory (x.val + 1), fun h => by
    obtain ⟨hin, hout⟩ := s.memRead_saveRegs h (x.val + 1) x.isLt
    refine ⟨fun r hr => ?_, fun a ha => hout a fun k hk => ?_⟩
    · exact (hin r.val (Nat.lt_succ_of_le hr)).trans (congrArg s.reg (regOfNat_val r))
    · exact ha _ (List.mem_map_of_mem (List.mem_range.2 hk))⟩

/-- Settles O20: LD Vx, [I] is the block restore of x + 1 registers. -/
theorem restoreLoadsV0ToVx : Obligations.RestoreLoadsV0ToVx := by
  intro x s
  refine ⟨decode_classF x 0x65, _, rfl, s.restoreRegs_onlyRegs (x.val + 1), fun r => ?_⟩
  rw [s.reg_restoreRegs (x.val + 1) x.isLt r]
  simp only [State.effAddr, Nat.lt_succ_iff, Fin.le_def]

end Sys2Proof.Machine
end

section
/-!
PROOFS. The statements of 46_keypad.md: the key events (R193, R194), the key skips (R190, R191, R195) and the
wait for a key (R192).
-/

namespace Sys2Proof.Machine

/-! ### The key events (R193, R194) -/

/-- The slot written reads what was written. -/
@[simp] theorem State.keyPressed_setKey_self (s : State) (k : KeyCode) (b : Bool) :
    (s.setKey k b).keyPressed k = b :=
  (s.keyPressed_setKey k k b).trans (if_pos rfl)

/-- Every slot but the one written is as before. -/
theorem State.keyPressed_setKey_of_ne (s : State) {k j : KeyCode} (h : j ≠ k) (b : Bool) :
    (s.setKey k b).keyPressed j = s.keyPressed j :=
  (s.keyPressed_setKey k j b).trans (if_neg h)

/-- A key going down sets its slot and no other, whether it ends a wait or not. -/
theorem State.onKeyDown_key (s : State) (k : KeyCode) : (s.onKeyDown k).key = (s.setKey k true).key := by
  rcases s.onKeyDown_cases k with ⟨_, -, e⟩ | ⟨-, e⟩
  · rw [e]; rfl
  · rw [e]

/-- A key code in a register has the code as its value. -/
@[simp] theorem toNat_keyByte (k : KeyCode) : (keyByte k).toNat = k.val :=
  Nat.mod_eq_of_lt (k.isLt.trans (by decide))

/-- A key going down in a wait writes its code to the waiting register and starts the engine again. -/
theorem State.onKeyDown_of_waiting {s : State} {x : Reg} (hw : s.runState = .waitingForKey x) (k : KeyCode) :
    s.onKeyDown k = { (s.setKey k true).setReg x (keyByte k) with runState := .running } := by
  rcases s.onKeyDown_cases k with ⟨y, hy, e⟩ | ⟨hno, -⟩
  · cases hw.symm.trans hy
    exact e
  · exact absurd hw (hno x)

/-- A key going down outside a wait changes nothing but its slot. -/
theorem State.onKeyDown_of_not_waiting {s : State} (hno : ∀ x, s.runState ≠ .waitingForKey x) (k : KeyCode) :
    s.onKeyDown k = s.setKey k true := by
  rcases s.onKeyDown_cases k with ⟨x, hx, -⟩ | ⟨-, e⟩
  · exact absurd hx (hno x)
  · exact e

/-- Settles O48: either event writes one slot; a KeyDown also writes the register of a wait, where there is one. -/
theorem keyEventsSetSlots : Obligations.KeyEventsSetSlots := by
  intro k s
  refine ⟨⟨s.onKeyDown k, rfl, ?_, fun j hj => ?_, fun x hw => ?_, fun hno => ?_⟩,
    s.setKey k false, rfl, s.keyPressed_setKey_self k false,
    fun j hj => s.keyPressed_setKey_of_ne hj false, rfl⟩
  · rw [s.onKeyDown_key]
    exact s.keyPressed_setKey_self k true
  · rw [s.onKeyDown_key]
    exact s.keyPressed_setKey_of_ne hj true
  · rw [State.onKeyDown_of_waiting hw]
    let s' := s.setKey k true
    exact ⟨(congrArg BitVec.toNat (s'.reg_setReg_self x (keyByte k))).trans (toNat_keyByte k),
      s'.sameRegsBut_setReg x (keyByte k), rfl⟩
  · rw [State.onKeyDown_of_not_waiting hno]
    rfl

/-! ### SKP and SKNP (R190, R191, R195) -/

/-- A word of class E is decoded by its low byte alone (R94). -/
theorem decode_classE (x : Reg) (kk : Byte) : decode (formatXKK 0xE x kk) = decodeClassE x kk := by
  rw [decode, opField_formatXKK, xField_formatXKK, kkField_formatXKK]; rfl

/-- A skip on a negated condition moves PC exactly where the condition does not hold. -/
theorem State.skipIf_not (s : State) (c : Bool) :
    s.skipIf (!c) = { s with pc := if c then s.pc else s.pc + 2 } := by
  cases c <;> rfl

theorem exec_skp (x : Reg) (s : State) : exec (.skp x) s =
    .next { s with pc := if s.keyPressed (lowNibble (s.reg x)) then s.pc + 2 else s.pc } :=
  congrArg Host.Outcome.next (s.skipIf_eq _)

theorem exec_sknp (x : Reg) (s : State) : exec (.sknp x) s =
    .next { s with pc := if s.keyPressed (lowNibble (s.reg x)) then s.pc else s.pc + 2 } :=
  congrArg Host.Outcome.next (s.skipIf_not _)

/-- Settles O12: both are the skip on the slot of the key that Vx's low nibble names. -/
theorem keySkipsSampleLowNibble : Obligations.KeySkipsSampleLowNibble := by
  intro x k s
  refine ⟨decode_classE x 0x9E, decode_classE x 0xA1, fun hk => ?_⟩
  have hkey : lowNibble (s.reg x) = k := Fin.ext hk
  rw [exec_skp, exec_sknp, hkey]
  exact ⟨rfl, rfl⟩

/-! ### LD Vx, K (R192) -/

/-- Outside Running a CpuStep does nothing. -/
theorem State.cpuStep_of_not_running {s : State} (h : s.runState ≠ .running) (r : Byte) :
    s.cpuStep r = .next s := by
  rcases s.cpuStep_cases r with ⟨-, e⟩ | ⟨_, hrun, -⟩ | ⟨_, hrun, -⟩
  · exact e
  · exact absurd hrun h
  · exact absurd hrun h

/-- In a wait a CpuStep does nothing. -/
theorem State.cpuStep_of_waiting {s : State} {x : Reg} (hw : s.runState = .waitingForKey x) (r : Byte) :
    s.cpuStep r = .next s :=
  State.cpuStep_of_not_running (by rw [hw]; nofun) r

/-- A tick of the sound timer steps the unit and emits PlaySound where it was active; nothing else changes. -/
theorem State.onStTick_eq (s : State) : s.onStTick =
    { s with st := s.st.step, effects := s.effects ++ if s.st.active then [.playSound] else [] } := by
  unfold State.onStTick
  split
  · rfl
  · rw [List.append_nil]

/-- Every event but a KeyDown and a load leaves a wait, PC and the registers as they are. -/
theorem State.deliver_keeps_wait {s : State} {x : Reg} (hw : s.runState = .waitingForKey x) {e : Event}
    (hdown : ∀ k, e ≠ .keyDown k) (hload : ∀ bytes, e ≠ .loadProgram bytes) (hfail : e ≠ .loadFailure) :
    ∃ t, s.deliver e = .next t ∧ t.runState = .waitingForKey x ∧ t.pc = s.pc ∧ t.v = s.v := by
  cases e with
  | cpuStep r => exact ⟨s, State.cpuStep_of_waiting hw r, hw, rfl, rfl⟩
  | stTick =>
    refine ⟨s.onStTick, rfl, ?_⟩
    rw [s.onStTick_eq]
    exact ⟨hw, rfl, rfl⟩
  | dtTick | keyUp => exact ⟨_, rfl, hw, rfl, rfl⟩
  | keyDown k => exact absurd rfl (hdown k)
  | loadProgram bytes => exact absurd rfl (hload bytes)
  | loadFailure => exact absurd rfl hfail

/-- Settles O22: the instruction sets the run-state alone, and a waiting engine is not Running. -/
theorem keyWaitSuspends : Obligations.KeyWaitSuspends := fun x s =>
  let waiting : State := { s with runState := .waitingForKey x }
  have hw : waiting.runState = .waitingForKey x := rfl
  ⟨decode_classF x 0x0A, rfl, fun r => State.cpuStep_of_waiting hw r,
    fun _ => State.deliver_keeps_wait hw⟩

end Sys2Proof.Machine
end

section
/-!
PROOFS. The statement of 47_timers.md: LD Vx, DT (R205).
-/

namespace Sys2Proof.Machine

/-- Settles O23: the read is one write of Vx with DT's value, and a register write leaves the timer as it is. -/
theorem timerReadIntoVx : Obligations.TimerReadIntoVx := fun x s =>
  ⟨decode_classF x 0x07, s.setReg x s.dt.value, rfl,
    s.reg_setReg_self x s.dt.value, s.sameRegsBut_setReg x s.dt.value, s.onlyRegs_setReg x s.dt.value⟩

end Sys2Proof.Machine
end

section
/-!
PROOFS. The statements of 48_display.md: CLS (R225), DRW (R226 to R228) and who emits DisplayChanged (R232).
-/

namespace Sys2Proof.Machine

/-! ### The read port (R231) -/

/-- Inside the grid the port reads the pixel. -/
theorem State.getCell_of_lt (s : State) {c r : Nat} (hc : c < 64) (hr : r < 32) :
    s.getCell c r = s.disp.at (⟨c, hc⟩, ⟨r, hr⟩) := dif_pos ⟨hc, hr⟩

/-- Only a cell of the grid reads as on. -/
theorem State.lt_of_getCell {s : State} {c r : Nat} (h : s.getCell c r = true) : c < 64 ∧ r < 32 := by
  by_contra hout
  rw [State.getCell, dif_neg hout] at h
  exact Bool.false_ne_true h

/-- A cell that goes from on to off, seen through the port, is a pixel that does. -/
theorem State.exists_getCell_turned_off {s t : State} :
    (∃ c r, s.getCell c r = true ∧ t.getCell c r = false) ↔
      ∃ p, s.disp.at p = true ∧ t.disp.at p = false := by
  constructor
  · rintro ⟨c, r, hon, hoff⟩
    obtain ⟨hc, hr⟩ := State.lt_of_getCell hon
    rw [State.getCell_of_lt _ hc hr] at hon hoff
    exact ⟨_, hon, hoff⟩
  · rintro ⟨⟨c, r⟩, hon, hoff⟩
    refine ⟨c, r, ?_⟩
    rw [State.getCell_of_lt _ c.isLt r.isLt, State.getCell_of_lt _ c.isLt r.isLt]
    exact ⟨hon, hoff⟩

/-! ### CLS (R225) -/

/-- Every cell of a clear grid reads as off, outside the grid too. -/
theorem State.getCell_of_clear {s : State} (h : s.disp = Grid.clear) (c r : Nat) : s.getCell c r = false := by
  unfold State.getCell
  split
  · rw [h, Grid.at_clear]
  · rfl

/-- Settles O25: CLS puts the clear grid in place and emits its effect. -/
theorem clearTurnsEveryCellOff : Obligations.ClearTurnsEveryCellOff := fun s =>
  ⟨by decide, { s with disp := Grid.clear }.emit .displayChanged, rfl, State.getCell_of_clear rfl, rfl⟩

/-! ### DRW (R226 to R228) -/

/-- The word of DRW (R94). -/
theorem decode_drw (x y : Reg) (n : BitVec 4) : decode (formatXYN 0xD x y n) = .ok (.drw x y n) := by
  rw [decode, opField_formatXYN, xField_formatXYN, yField_formatXYN, nField_formatXYN]; rfl

theorem flagByte_eq_one (b : Bool) : flagByte b = 1 ↔ b = true := by
  cases b <;> decide

theorem flagByte_eq_one_or_zero (b : Bool) : flagByte b = 1 ∨ flagByte b = 0 := by
  cases b
  · exact .inr rfl
  · exact .inl rfl

/-- Where the sprite's pixels are inverted, a cell of the grid is on exactly where either the cell was on
or the sprite lights it, and not both. -/
theorem State.getCell_of_inverted {s t : State} {x0 y0 n : Nat}
    (hgrid : ∀ q, t.disp.at q = (s.disp.at q ^^ decide (q ∈ s.spriteCells x0 y0 n))) {c r : Nat}
    (hc : c < 64) (hr : r < 32) :
    t.getCell c r = true ↔ ¬ (s.getCell c r = true ↔ spriteLights s x0 y0 n c r) := by
  have hlit : (⟨c, hc⟩, ⟨r, hr⟩) ∈ s.spriteCells x0 y0 n ↔ spriteLights s x0 y0 n c r := mem_spriteCells s
  rw [State.getCell_of_lt t hc hr, State.getCell_of_lt s hc hr, hgrid, ← hlit,
    Bool.xor_iff_ne, ne_eq, Bool.eq_iff_iff, decide_eq_true_iff]

/-- Where the pixels `l` are inverted, one of them was on exactly when some pixel goes from on to off. -/
theorem Grid.any_on_iff_turned_off {g h : Grid} {l : List Pixel}
    (hgrid : ∀ q, h.at q = (g.at q ^^ decide (q ∈ l))) :
    (l.any fun p => g.at p) = true ↔ ∃ p, g.at p = true ∧ h.at p = false := by
  rw [List.any_eq_true]
  refine exists_congr fun p => ?_
  rw [hgrid, and_comm]
  refine and_congr_right fun hon => ?_
  simp [hon]

/-- Settles O26: DRW inverts the sprite's pixels, each once, and its flag is whether one of them was on. -/
theorem drawXorsSpriteAndDetectsCollision : Obligations.DrawXorsSpriteAndDetectsCollision := by
  intro x y n s
  obtain ⟨t, hexec, hframe, hregs, hflag, hgrid⟩ := exec_drw_spec x y n s
  refine ⟨decode_drw x y n, t, hexec, fun _ _ hc hr => State.getCell_of_inverted hgrid hc hr, ?_, ?_,
    fun r hr => hregs r (List.ne_of_not_mem_cons hr), sameMemory_of_mem_eq (by rw [hframe]), hframe⟩
  · rw [hflag, flagByte_eq_one, Grid.any_on_iff_turned_off hgrid, State.exists_getCell_turned_off]
  · rw [hflag]
    exact flagByte_eq_one_or_zero _

/-! ### Who emits DisplayChanged (R232) -/

/-- From `s` to `t` effects are appended, and none of them is DisplayChanged. -/
def NoDisplayChanged (s t : State) : Prop :=
  ∃ new, t.effects = s.effects ++ new ∧ .displayChanged ∉ new

theorem NoDisplayChanged.of_effects_eq {s t : State} (h : t.effects = s.effects) : NoDisplayChanged s t :=
  ⟨[], by rw [h, List.append_nil], List.not_mem_nil⟩

/-- One effect of another kind is no DisplayChanged. -/
theorem NoDisplayChanged.of_emitted {s t : State} {e : Effect} (h : t.effects = s.effects ++ [e])
    (he : .displayChanged ≠ e) : NoDisplayChanged s t :=
  ⟨[e], h, fun hm => he (List.mem_singleton.1 hm)⟩

/-- A fault reports itself and emits no DisplayChanged. -/
theorem NoDisplayChanged.raiseFault (s : State) (c : FaultCause) (a w : Word) :
    NoDisplayChanged s (s.raiseFault c a w) :=
  .of_emitted (s.raiseFault_effects c a w) nofun

/-- Every instruction but the two of the display emits no DisplayChanged: CALL and RET may report a fault, and
the others emit nothing. -/
theorem exec_noDisplayChanged {i : Instr} (s : State) (hcls : i ≠ .cls) (hdrw : ∀ x y n, i ≠ .drw x y n) :
    ∃ t, exec i s = .next t ∧ NoDisplayChanged s t := by
  cases i with
  | cls => exact absurd rfl hcls
  | drw x y n => exact absurd rfl (hdrw x y n)
  | call nnn =>
    rcases exec_call_cases nnn s with ⟨-, e⟩ | ⟨-, e⟩
    · exact ⟨_, e, .raiseFault s _ _ _⟩
    · exact ⟨_, e, .of_effects_eq rfl⟩
  | ret =>
    rcases exec_ret_cases s with ⟨-, e⟩ | ⟨_, _, -, e⟩
    · exact ⟨_, e, .raiseFault s _ _ _⟩
    · exact ⟨_, e, .of_effects_eq rfl⟩
  | ldMemVx x => exact ⟨_, rfl, .of_effects_eq (by rw [s.saveRegs_onlyMemory])⟩
  | ldVxMem x => exact ⟨_, rfl, .of_effects_eq (by rw [(s.restoreRegs_onlyRegs _).1])⟩
  | seByte | sneByte | seReg | sneReg | skp | sknp =>
    exact ⟨_, rfl, .of_effects_eq (by rw [State.skipIf_eq])⟩
  | _ => exact ⟨_, rfl, .of_effects_eq rfl⟩

/-- A tick of the sound timer emits PlaySound or nothing. -/
theorem State.onStTick_noDisplayChanged (s : State) : NoDisplayChanged s s.onStTick := by
  unfold State.onStTick
  split
  · exact .of_emitted rfl nofun
  · exact .of_effects_eq rfl

/-- A key going down emits nothing, whether it ends a wait or not. -/
@[simp] theorem State.onKeyDown_effects (s : State) (k : KeyCode) : (s.onKeyDown k).effects = s.effects := by
  rcases s.onKeyDown_cases k with ⟨_, -, e⟩ | ⟨-, e⟩ <;> rw [e] <;> rfl

/-- A failed load reports itself and emits no DisplayChanged. -/
theorem State.onLoadFailure_noDisplayChanged (s : State) : NoDisplayChanged s s.onLoadFailure :=
  .of_emitted rfl nofun

/-- A load emits nothing, or reports that the program does not fit. -/
theorem State.onLoadProgram_noDisplayChanged (s : State) (bytes : List Byte) :
    NoDisplayChanged s (s.onLoadProgram bytes) := by
  rcases s.onLoadProgram_cases bytes with ⟨-, e⟩ | ⟨-, e⟩ <;> rw [e]
  · exact .of_effects_eq rfl
  · exact s.onLoadFailure_noDisplayChanged

/-- A CpuStep that executes no instruction does nothing or halts on the unknown word. -/
theorem State.cpuStep_noDisplayChanged {s : State} (r : Byte)
    (hno : ∀ i, s.runState = .running → decode s.fetchWord ≠ .ok i) :
    ∃ t, s.cpuStep r = .next t ∧ NoDisplayChanged s t := by
  rcases s.cpuStep_cases r with ⟨-, e⟩ | ⟨i, hrun, hi, -⟩ | ⟨_, -, -, e⟩
  · exact ⟨_, e, .of_effects_eq rfl⟩
  · exact absurd hi (hno i hrun)
  · exact ⟨_, e, .raiseFault s.advancePc _ _ _⟩

/-- Every event that executes no instruction emits no DisplayChanged. -/
theorem State.deliver_noDisplayChanged {e : Event} {s : State}
    (hno : ∀ r i, e = .cpuStep r → s.runState = .running → decode s.fetchWord ≠ .ok i) :
    ∃ t, s.deliver e = .next t ∧ NoDisplayChanged s t := by
  cases e with
  | cpuStep r => exact State.cpuStep_noDisplayChanged r fun i => hno r i rfl
  | stTick => exact ⟨_, rfl, s.onStTick_noDisplayChanged⟩
  | keyDown k => exact ⟨_, rfl, .of_effects_eq (s.onKeyDown_effects k)⟩
  | loadProgram bytes => exact ⟨_, rfl, s.onLoadProgram_noDisplayChanged bytes⟩
  | loadFailure => exact ⟨_, rfl, s.onLoadFailure_noDisplayChanged⟩
  | dtTick | keyUp => exact ⟨_, rfl, .of_effects_eq rfl⟩

/-- Settles O47, by the instruction and by the event. -/
theorem displayChangedOnlyFromDisplay : Obligations.DisplayChangedOnlyFromDisplay := by
  refine ⟨fun i s => ?_, fun e s hno => ?_⟩
  · by_cases hdisplay : i = .cls ∨ ∃ x y n, i = .drw x y n
    · obtain ⟨t, hexec, heffects⟩ : ∃ t, exec i s = .next t ∧ t.effects = s.effects ++ [.displayChanged] := by
        rcases hdisplay with rfl | ⟨x, y, n, rfl⟩ <;> exact ⟨_, rfl, rfl⟩
      refine ⟨t, [.displayChanged], hexec, heffects, fun _ => rfl, fun hcls hdrw => ?_⟩
      rcases hdisplay with h | ⟨x, y, n, h⟩
      · exact absurd h hcls
      · exact absurd h (hdrw x y n)
    · obtain ⟨t, hexec, new, heffects, hnew⟩ := exec_noDisplayChanged s (fun h => hdisplay (.inl h))
        fun x y n h => hdisplay (.inr ⟨x, y, n, h⟩)
      exact ⟨t, new, hexec, heffects, fun h => absurd h hdisplay, fun _ _ => hnew⟩
  · obtain ⟨t, hdeliver, new, heffects, hnew⟩ := State.deliver_noDisplayChanged hno
    exact ⟨t, new, hdeliver, heffects, hnew⟩

end Sys2Proof.Machine
end

section
/-!
PROOFS. The statements of 60_exceptions.md: the halt on an unknown word (R243), the halt in general (R246) and
that it lasts until a load (R247).
-/

namespace Sys2Proof

/-! ### A decoded word is the encoding of its instruction (R91, R94) -/

section
variable {w : Word} {c : BitVec 4}

/-- A word of class `c` is `c` and its address field. -/
theorem formatNNN_eq (hop : opField w = c) : formatNNN c (nnnField w) = w :=
  hop ▸ formatNNN_fields w

/-- A word of class `c` with the low byte `kk` is rebuilt from these two and its x field. -/
theorem formatXKK_eq {kk : Byte} (hop : opField w = c) (hkk : kkField w = kk) :
    formatXKK c (xField w) kk = w :=
  hop ▸ hkk ▸ formatXKK_fields w

/-- A word of class `c` with the low nibble `n` is rebuilt from these two and its two register fields. -/
theorem formatXYN_eq {n : BitVec 4} (hop : opField w = c) (hn : nField w = n) :
    formatXYN c (xField w) (yField w) n = w :=
  hop ▸ hn ▸ formatXYN_fields w

end

section
variable {w : Word} {i : Instr}

/-- Class 0 decodes its two words only. -/
theorem encode_of_decodeClass0 (h : decodeClass0 w = .ok i) : encode i = w := by
  unfold decodeClass0 at h
  split_ifs at h with hcls hret <;> cases h
  · exact hcls.symm
  · exact hret.symm

/-- Class 8 decodes a word by the low nibble that its encoding has. -/
theorem encode_of_decodeClass8 (hop : opField w = 0x8)
    (h : decodeClass8 (xField w) (yField w) (nField w) = .ok i) : encode i = w := by
  unfold decodeClass8 at h
  split at h <;> cases h <;> exact formatXYN_eq hop (BitVec.eq_of_toNat_eq ‹_›)

/-- Class E decodes a word by the low byte that its encoding has. -/
theorem encode_of_decodeClassE (hop : opField w = 0xE)
    (h : decodeClassE (xField w) (kkField w) = .ok i) : encode i = w := by
  unfold decodeClassE at h
  split_ifs at h <;> cases h <;> exact formatXKK_eq hop ‹_›

/-- Class F decodes a word by the low byte that its encoding has. -/
theorem encode_of_decodeClassF (hop : opField w = 0xF)
    (h : decodeClassF (xField w) (kkField w) = .ok i) : encode i = w := by
  unfold decodeClassF at h
  split_ifs at h <;> cases h <;> exact formatXKK_eq hop ‹_›

/-- A word that decodes is the encoding of the instruction it decodes to, class by class. -/
theorem encode_of_decode (h : decode w = .ok i) : encode i = w := by
  unfold decode at h
  -- branch `h_(k+1)` of the decoder is class k
  split at h
  case h_1 => exact encode_of_decodeClass0 h
  case h_9 hop => exact encode_of_decodeClass8 (BitVec.eq_of_toNat_eq hop) h
  case h_15 hop => exact encode_of_decodeClassE (BitVec.eq_of_toNat_eq hop) h
  case h_16 =>
    have hop : (opField w).toNat = 15 := by
      have hlt := (opField w).isLt
      simp only [imp_false] at *
      omega
    exact encode_of_decodeClassF (BitVec.eq_of_toNat_eq hop) h
  case h_6 hop | h_10 hop =>
    split_ifs at h with hn
    cases h
    exact formatXYN_eq (BitVec.eq_of_toNat_eq hop) hn
  case h_2 hop | h_3 hop | h_11 hop | h_12 hop =>
    cases h
    exact formatNNN_eq (BitVec.eq_of_toNat_eq hop)
  case h_14 hop =>
    cases h
    exact formatXYN_eq (BitVec.eq_of_toNat_eq hop) rfl
  case h_4 hop | h_5 hop | h_7 hop | h_8 hop | h_13 hop =>
    cases h
    exact formatXKK_eq (BitVec.eq_of_toNat_eq hop) rfl

end

end Sys2Proof

namespace Sys2Proof.Machine

/-! ### The halt on an unknown word (R243) -/

/-- In Running, a CpuStep on a word that is no instruction raises UnknownOpcode with PC past the word. -/
theorem State.cpuStep_of_unknown {s : State} {e : DecodeError} (hrun : s.runState = .running)
    (he : decode s.fetchWord = .error e) (r : Byte) :
    s.cpuStep r = .next (s.advancePc.raiseFault .unknownOpcode s.pc s.fetchWord) := by
  rcases s.cpuStep_cases r with ⟨hstop, -⟩ | ⟨i, -, hi, -⟩ | ⟨_, -, -, hstep⟩
  · exact absurd hrun hstop
  · cases he.symm.trans hi
  · exact hstep

/-- Settles O40: the fault is the only thing that the step does besides moving PC. -/
theorem unknownOpcodeHalts : Obligations.UnknownOpcodeHalts :=
  fun _ r _ hrun he => State.cpuStep_of_unknown hrun he r

/-! ### The halt in general (R246) -/

/-- What each cause says of the machine that meets the fault: the word at PC and the stack (R241 to R243). -/
def FaultCause.HoldsIn (s : State) : FaultCause → Prop
  | .stackOverflow => s.stack.length = 16 ∧ ∃ nnn, decode s.fetchWord = .ok (.call nnn)
  | .stackUnderflow => s.stack = [] ∧ decode s.fetchWord = .ok .ret
  | .unknownOpcode => ∃ e, decode s.fetchWord = .error e

/-- An instruction that halts a running machine is a CALL or a RET that raises its fault with the fetch address
and the fetched word. -/
theorem exec_fault_of_halted {i : Instr} {s t : State} {r : Byte} {f : FaultRecord}
    (hrun : s.runState = .running) (hi : decode s.fetchWord = .ok i)
    (h : exec i { s.advancePc with draw := r } = .next t) (hf : t.runState = .halted f) :
    ∃ c : FaultCause, c.HoldsIn s ∧ t = { s.advancePc with draw := r }.raiseFault c s.pc s.fetchWord := by
  have haddr : State.fetchAddr { s.advancePc with draw := r } = s.pc := State.fetchAddr_of_pc _ rfl
  rcases exec_runState h with hkept | ⟨x, -, ht⟩ | ⟨nnn, rfl, hfull, ht⟩ | ⟨rfl, hempty, ht⟩
  · cases hf.symm.trans (hkept.trans hrun)
  · rw [ht] at hf
    cases hf
  · rw [haddr, encode_of_decode hi] at ht
    exact ⟨.stackOverflow, ⟨hfull, nnn, hi⟩, ht⟩
  · rw [haddr, encode_of_decode hi] at ht
    exact ⟨.stackUnderflow, ⟨hempty, hi⟩, ht⟩

/-- A CpuStep that halts a running machine moves PC, may take in the draw, and raises one fault, whose cause holds
and whose record has the fetch address and the fetched word. -/
theorem State.cpuStep_fault_of_halted {s t : State} {r : Byte} {f : FaultRecord}
    (hrun : s.runState = .running) (h : s.cpuStep r = .next t) (hf : t.runState = .halted f) :
    ∃ (c : FaultCause) (d : Byte), c.HoldsIn s ∧
      t = { s.advancePc with draw := d }.raiseFault c s.pc s.fetchWord := by
  rcases s.cpuStep_cases r with ⟨hstop, -⟩ | ⟨i, -, hi, hstep⟩ | ⟨e, -, he, hstep⟩
  · exact absurd hrun hstop
  · obtain ⟨c, hc, ht⟩ := exec_fault_of_halted hrun hi (hstep.symm.trans h) hf
    exact ⟨c, r, hc, ht⟩
  · cases hstep.symm.trans h
    exact ⟨.unknownOpcode, s.draw, ⟨e, he⟩, rfl⟩

/-- Settles O57: the step raises one fault, and the record it halts with is that fault's. -/
theorem faultsArePrecise : Obligations.FaultsArePrecise := by
  intro s t r f hrun h hf
  obtain ⟨c, d, hc, rfl⟩ := State.cpuStep_fault_of_halted hrun h hf
  obtain rfl : ⟨c, s.pc, s.fetchWord⟩ = f := RunState.halted.inj hf
  refine ⟨rfl, rfl, ?_, ?_, ?_, rfl⟩ <;> rintro rfl <;> exact hc

/-! ### A halt lasts until a load (R247) -/

/-- A failed load stops the engine. -/
@[simp] theorem State.onLoadFailure_runState (s : State) : s.onLoadFailure.runState = .stopped := rfl

/-- A load runs the program, or stops the engine where it does not fit. -/
theorem State.onLoadProgram_runState (s : State) (bytes : List Byte) :
    (s.onLoadProgram bytes).runState = if bytes.length ≤ 3584 then .running else .stopped := by
  rcases s.onLoadProgram_cases bytes with ⟨hfits, e⟩ | ⟨hlong, e⟩
  · rw [e, if_pos hfits]
  · rw [e, if_neg (Nat.not_le.2 hlong), State.onLoadFailure_runState]

/-- Settles O56, by the event: no CpuStep executes, the ticks and keys leave a run-state that is no wait, and only
the loads set it. -/
theorem haltedIsSticky : Obligations.HaltedIsSticky := by
  intro s f e hs
  cases e with
  | cpuStep r => exact ⟨s, State.cpuStep_of_not_running (by rw [hs]; nofun) r, rfl⟩
  | stTick => exact ⟨s.onStTick, rfl, by rw [s.onStTick_eq]; exact hs⟩
  | keyDown k =>
    refine ⟨s.onKeyDown k, rfl, ?_⟩
    rw [State.onKeyDown_of_not_waiting (by rw [hs]; nofun), State.setKey_runState, hs]
  | dtTick | keyUp => exact ⟨_, rfl, hs⟩
  | loadProgram bytes => exact ⟨_, rfl, s.onLoadProgram_runState bytes⟩
  | loadFailure => exact ⟨_, rfl, s.onLoadFailure_runState⟩

end Sys2Proof.Machine
end

section
/-!
PROOFS. The statements of 30_encoding.md: the round trip (R91, R94), the decoder against the opcode table (R93,
R103), the list of unknown words (R95) and the sample words.
-/

namespace Sys2Proof

open Sys2Proof.Machine

/-! ### Decoding what was encoded (R91, R94) -/

/-- Every instruction is decoded from its own word, with every operand. -/
theorem decode_encode (i : Instr) : decode (encode i) = .ok i := by
  cases i with
  | cls | ret => rfl
  | jp nnn => exact decode_jp nnn
  | call nnn => exact decode_call nnn
  | seByte x kk => exact decode_seByte x kk
  | sneByte x kk => exact decode_sneByte x kk
  | seReg x y => exact decode_seReg x y
  | ldByte x kk => exact decode_ldByte x kk
  | addByte x kk => exact decode_addByte x kk
  | ldReg x y | orReg x y | andReg x y | xorReg x y | addReg x y | sub x y | shr x y | subn x y | shl x y =>
    exact decode_class8 x y _
  | sneReg x y => exact decode_sneReg x y
  | ldI nnn => exact decode_ldI nnn
  | jpV0 nnn => exact decode_jpV0 nnn
  | rnd x kk => exact decode_rnd x kk
  | drw x y n => exact decode_drw x y n
  | skp x | sknp x => exact decode_classE x _
  | ldVxDt x | ldVxK x | ldDtVx x | ldStVx x | addIVx x | ldFVx x | ldBVx x | ldMemVx x | ldVxMem x =>
    exact decode_classF x _

/-- A word is its two bytes, the high one first (20_memory.md R64). -/
theorem wordOfBytes_highByte_lowByte (w : Word) : wordOfBytes (highByte w) (lowByte w) = w := by
  have hw := w.isLt
  apply BitVec.eq_of_toNat_eq
  simp only [toNat_wordOfBytes, highByte, lowByte, BitVec.extractLsb'_toNat, Nat.shiftRight_eq_div_pow]
  omega

/-- Settles O34: the bytes are those of the word, and the decoder of bytes reads two and keeps the rest. -/
theorem decodeOfEncode : Obligations.DecodeOfEncode := by
  intro i rest
  refine ⟨decode_encode i, ?_⟩
  change (decode (wordOfBytes (highByte (encode i)) (lowByte (encode i)))).map (·, rest) = _
  rw [wordOfBytes_highByte_lowByte, decode_encode]
  rfl

/-- Settles O35. -/
theorem encodeOfDecode : Obligations.EncodeOfDecode := fun _ _ => encode_of_decode

/-! ### The decoder and the opcode table (R93, R103) -/

/-- The family `TableRow` of every instruction: its row stands in the table and matches its word. -/
theorem tableRow_statement (i : Instr) : Laws.TableRow.Statement i := by
  cases i with
  | cls => exact Laws.TableRow.cls
  | ret => exact Laws.TableRow.ret
  | jp => exact Laws.TableRow.jp _
  | call => exact Laws.TableRow.call _
  | seByte => exact Laws.TableRow.seByte _ _
  | sneByte => exact Laws.TableRow.sneByte _ _
  | seReg => exact Laws.TableRow.seReg _ _
  | ldByte => exact Laws.TableRow.ldByte _ _
  | addByte => exact Laws.TableRow.addByte _ _
  | ldReg => exact Laws.TableRow.ldReg _ _
  | orReg => exact Laws.TableRow.orReg _ _
  | andReg => exact Laws.TableRow.andReg _ _
  | xorReg => exact Laws.TableRow.xorReg _ _
  | addReg => exact Laws.TableRow.addReg _ _
  | sub => exact Laws.TableRow.sub _ _
  | shr => exact Laws.TableRow.shr _ _
  | subn => exact Laws.TableRow.subn _ _
  | shl => exact Laws.TableRow.shl _ _
  | sneReg => exact Laws.TableRow.sneReg _ _
  | ldI => exact Laws.TableRow.ldI _
  | jpV0 => exact Laws.TableRow.jpV0 _
  | rnd => exact Laws.TableRow.rnd _ _
  | drw => exact Laws.TableRow.drw _ _ _
  | skp => exact Laws.TableRow.skp _
  | sknp => exact Laws.TableRow.sknp _
  | ldVxDt => exact Laws.TableRow.ldVxDt _
  | ldVxK => exact Laws.TableRow.ldVxK _
  | ldDtVx => exact Laws.TableRow.ldDtVx _
  | ldStVx => exact Laws.TableRow.ldStVx _
  | addIVx => exact Laws.TableRow.addIVx _
  | ldFVx => exact Laws.TableRow.ldFVx _
  | ldBVx => exact Laws.TableRow.ldBVx _
  | ldMemVx => exact Laws.TableRow.ldMemVx _
  | ldVxMem => exact Laws.TableRow.ldVxMem _

theorem row_mem_opcodeTable (i : Instr) : i.row ∈ opcodeTable := (tableRow_statement i).1

theorem encode_and_mask (i : Instr) : encode i &&& i.row.mask = i.row.pattern :=
  beq_iff_eq.1 (tableRow_statement i).2

section
variable {w : Word} {c : BitVec 4}

/-- A word that a row with the class mask matches is of the row's class. -/
theorem opField_of_and_F000 (h : w &&& 0xF000#16 = formatNNN c 0) : opField w = c := by
  rw [and_F000] at h
  rw [← opField_formatNNN (opField w) 0, h, opField_formatNNN]

/-- A word that a row of format `F_XYF` matches has the row's class and function code, and so is rebuilt from
them and its register fields. -/
theorem formatXYN_of_and_F00F {n : BitVec 4} (h : w &&& 0xF00F#16 = formatXYN c 0 0 n) :
    formatXYN c (xField w) (yField w) n = w := by
  rw [and_F00F] at h
  refine formatXYN_eq ?_ ?_
  · rw [← opField_formatXYN (opField w) 0 0 (nField w), h, opField_formatXYN]
  · rw [← nField_formatXYN (opField w) 0 0 (nField w), h, nField_formatXYN]

/-- A word that a row of format `F_XFF` matches has the row's class and function code, and so is rebuilt from
them and its register field. -/
theorem formatXKK_of_and_F0FF {kk : Byte} (h : w &&& 0xF0FF#16 = formatXKK c 0 kk) :
    formatXKK c (xField w) kk = w := by
  rw [and_F0FF] at h
  refine formatXKK_eq ?_ ?_
  · rw [← opField_formatXKK (opField w) 0 (kkField w), h, opField_formatXKK]
  · rw [← kkField_formatXKK (opField w) 0 (kkField w), h, kkField_formatXKK]

/-- A word matched by a row with the full mask is the row's pattern. -/
theorem eq_of_and_FFFF {p : Word} (h : w &&& 0xFFFF#16 = p) : p = w :=
  h.symm.trans (BitVec.and_allOnes (x := w))

end

/-- A word that a row of the table matches is the encoding of an instruction of that row, row by row: its class
and function code are the row's, and its other fields are the operands. -/
theorem exists_encode_of_row (w : Word) : ∀ row ∈ opcodeTable, w &&& row.mask = row.pattern →
    ∃ i : Instr, i.row = row ∧ encode i = w := by
  simp only [opcodeTable, List.cons_append, List.nil_append, List.forall_mem_cons]
  refine ⟨fun h => ⟨.cls, rfl, eq_of_and_FFFF h⟩,
    fun h => ⟨.ret, rfl, eq_of_and_FFFF h⟩,
    fun h => ⟨.jp (nnnField w), rfl, formatNNN_eq (opField_of_and_F000 h)⟩,
    fun h => ⟨.call (nnnField w), rfl, formatNNN_eq (opField_of_and_F000 h)⟩,
    fun h => ⟨.seByte (xField w) (kkField w), rfl, formatXKK_eq (opField_of_and_F000 h) rfl⟩,
    fun h => ⟨.sneByte (xField w) (kkField w), rfl, formatXKK_eq (opField_of_and_F000 h) rfl⟩,
    fun h => ⟨.seReg (xField w) (yField w), rfl, formatXYN_of_and_F00F h⟩,
    fun h => ⟨.ldByte (xField w) (kkField w), rfl, formatXKK_eq (opField_of_and_F000 h) rfl⟩,
    fun h => ⟨.addByte (xField w) (kkField w), rfl, formatXKK_eq (opField_of_and_F000 h) rfl⟩,
    fun h => ⟨.ldReg (xField w) (yField w), rfl, formatXYN_of_and_F00F h⟩,
    fun h => ⟨.orReg (xField w) (yField w), rfl, formatXYN_of_and_F00F h⟩,
    fun h => ⟨.andReg (xField w) (yField w), rfl, formatXYN_of_and_F00F h⟩,
    fun h => ⟨.xorReg (xField w) (yField w), rfl, formatXYN_of_and_F00F h⟩,
    fun h => ⟨.addReg (xField w) (yField w), rfl, formatXYN_of_and_F00F h⟩,
    fun h => ⟨.sub (xField w) (yField w), rfl, formatXYN_of_and_F00F h⟩,
    fun h => ⟨.shr (xField w) (yField w), rfl, formatXYN_of_and_F00F h⟩,
    fun h => ⟨.subn (xField w) (yField w), rfl, formatXYN_of_and_F00F h⟩,
    fun h => ⟨.shl (xField w) (yField w), rfl, formatXYN_of_and_F00F h⟩,
    fun h => ⟨.sneReg (xField w) (yField w), rfl, formatXYN_of_and_F00F h⟩,
    fun h => ⟨.ldI (nnnField w), rfl, formatNNN_eq (opField_of_and_F000 h)⟩,
    fun h => ⟨.jpV0 (nnnField w), rfl, formatNNN_eq (opField_of_and_F000 h)⟩,
    fun h => ⟨.rnd (xField w) (kkField w), rfl, formatXKK_eq (opField_of_and_F000 h) rfl⟩,
    fun h => ⟨.drw (xField w) (yField w) (nField w), rfl, formatXYN_eq (opField_of_and_F000 h) rfl⟩,
    fun h => ⟨.skp (xField w), rfl, formatXKK_of_and_F0FF h⟩,
    fun h => ⟨.sknp (xField w), rfl, formatXKK_of_and_F0FF h⟩,
    fun h => ⟨.ldVxDt (xField w), rfl, formatXKK_of_and_F0FF h⟩,
    fun h => ⟨.ldVxK (xField w), rfl, formatXKK_of_and_F0FF h⟩,
    fun h => ⟨.ldDtVx (xField w), rfl, formatXKK_of_and_F0FF h⟩,
    fun h => ⟨.ldStVx (xField w), rfl, formatXKK_of_and_F0FF h⟩,
    fun h => ⟨.addIVx (xField w), rfl, formatXKK_of_and_F0FF h⟩,
    fun h => ⟨.ldFVx (xField w), rfl, formatXKK_of_and_F0FF h⟩,
    fun h => ⟨.ldBVx (xField w), rfl, formatXKK_of_and_F0FF h⟩,
    fun h => ⟨.ldMemVx (xField w), rfl, formatXKK_of_and_F0FF h⟩,
    fun h => ⟨.ldVxMem (xField w), rfl, formatXKK_of_and_F0FF h⟩, ?_⟩
  exact fun _ h => absurd h List.not_mem_nil

/-- A word that a row matches decodes to an instruction of that row. -/
theorem exists_decode_of_row {w : Word} {row : OpcodeRow} (hrow : row ∈ opcodeTable)
    (h : w &&& row.mask = row.pattern) : ∃ i : Instr, i.row = row ∧ decode w = .ok i := by
  obtain ⟨i, hi, rfl⟩ := exists_encode_of_row w row hrow h
  exact ⟨i, hi, decode_encode i⟩

/-- The row of the instruction that a word decodes to matches the word. -/
theorem and_mask_of_decode {w : Word} {i : Instr} (h : decode w = .ok i) :
    w &&& i.row.mask = i.row.pattern :=
  encode_of_decode h ▸ encode_and_mask i

/-- Settles O36: a row that matches a word is the row of the one instruction that the word decodes to. -/
theorem decodeFollowsTable : Obligations.DecodeFollowsTable := by
  intro w
  refine ⟨⟨fun ⟨i, hi⟩ => ⟨i.row, row_mem_opcodeTable i, and_mask_of_decode hi⟩, fun ⟨row, hrow, h⟩ => ?_⟩,
    fun i hi row hrow => ⟨fun h => ?_, fun e => e ▸ and_mask_of_decode hi⟩⟩
  · obtain ⟨i, -, hi⟩ := exists_decode_of_row hrow h
    exact ⟨i, hi⟩
  · obtain ⟨j, rfl, hj⟩ := exists_decode_of_row hrow h
    rw [Except.ok.inj (hi.symm.trans hj)]

/-! ### The unknown words (R95) -/

theorem decodeClass0_isError (w : Word) :
    (∃ e, decodeClass0 w = .error e) ↔ w ≠ 0x00E0#16 ∧ w ≠ 0x00EE#16 := by
  unfold decodeClass0
  split_ifs <;> simp [*]

theorem decodeClass8_isError (x y : Reg) (n : BitVec 4) : (∃ e, decodeClass8 x y n = .error e) ↔
    n.toNat ∈ [0x8, 0x9, 0xA, 0xB, 0xC, 0xD, 0xF] := by
  have hn := n.isLt
  unfold decodeClass8
  split
  case h_10 =>
    simp only [imp_false] at *
    simp only [Except.error.injEq, exists_eq', List.mem_cons, List.not_mem_nil, true_iff]
    omega
  all_goals simp [*]

theorem decodeClassE_isError (x : Reg) (kk : Byte) :
    (∃ e, decodeClassE x kk = .error e) ↔ kk.toNat ∉ [0x9E, 0xA1] := by
  simp only [decodeClassE, BitVec.toNat_eq]
  split_ifs <;> simp_all

theorem decodeClassF_isError (x : Reg) (kk : Byte) : (∃ e, decodeClassF x kk = .error e) ↔
    kk.toNat ∉ [0x07, 0x0A, 0x15, 0x18, 0x1E, 0x29, 0x33, 0x55, 0x65] := by
  simp only [decodeClassF, BitVec.toNat_eq]
  split_ifs <;> simp_all

/-- Settles O37, class by class of the decoder. -/
theorem unknownWordsAreListed : Obligations.UnknownWordsAreListed := by
  intro w
  unfold decode
  -- branch `h_(k+1)` of the decoder is class k
  split
  case h_1 hop => simp [BitVec.toNat_eq, hop, decodeClass0_isError]
  case h_9 hop => simp [BitVec.toNat_eq, hop, decodeClass8_isError]
  case h_15 hop => simp [BitVec.toNat_eq, hop, decodeClassE_isError]
  case h_16 =>
    have hop : (opField w).toNat = 15 := by
      have hlt := (opField w).isLt
      simp only [imp_false] at *
      omega
    simp [BitVec.toNat_eq, hop, decodeClassF_isError]
  case h_6 hop | h_10 hop => split_ifs with hn <;> simp [BitVec.toNat_eq, hop, hn]
  case h_2 hop | h_3 hop | h_4 hop | h_5 hop | h_7 hop | h_8 hop | h_11 hop | h_12 hop | h_13 hop | h_14 hop =>
    simp [BitVec.toNat_eq, hop]

/-- Settles O38. -/
theorem sampleWordsDecode : Obligations.SampleWordsDecode :=
  ⟨rfl, rfl, rfl, rfl, rfl, rfl, rfl⟩

end Sys2Proof
end

section
/-!
PROOFS. The statements of 20_memory.md about the ports (R61 to R63), the loader (R76) and a store that the next
fetch reads (R73), and the saved block of 45_index_and_memory.md (R178, R179).
-/

namespace Sys2Proof.Machine

/-! ### The ports (R61 to R63) -/

/-- Settles O29: the port masks its address, and `put` changes one cell. -/
theorem writeThenReadIsMasked : Obligations.WriteThenReadIsMasked := fun s a b u hwf =>
  ⟨s.memRead_memWrite hwf a b u, (s.memRead_mod b).symm, rfl, Memory.wf_write hwf a u⟩

/-! ### The loader (R76) -/

/-- A cell that no loaded byte goes to reads as before. -/
theorem Memory.read_load_outside {m : Memory} (hwf : m.wf) (bytes : List Byte) (start : Nat) {a : Nat}
    (ha : ∀ i, i < bytes.length → a % 4096 ≠ (start + i) % 4096) : (m.load bytes start).read a = m.read a := by
  induction bytes generalizing m start with
  | nil => rfl
  | cons b rest ih =>
    have hrest : ∀ i, i < rest.length → a % 4096 ≠ (start + 1 + i) % 4096 := fun i hi => by
      rw [Nat.add_assoc, Nat.add_comm 1 i]
      exact ha (i + 1) (Nat.succ_lt_succ hi)
    calc (m.load (b :: rest) start).read a = (m.write start b).read a :=
          ih (Memory.wf_write hwf start b) (start + 1) hrest
      _ = m.read a := (Memory.read_write hwf start a b).trans (if_neg (ha 0 (Nat.succ_pos _)))

/-- A loaded byte is read back, since at most 4096 bytes go to cells of their own. -/
theorem Memory.read_load_inside {m : Memory} (hwf : m.wf) (bytes : List Byte) (start : Nat)
    (hlen : bytes.length ≤ 4096) {i : Nat} (hi : i < bytes.length) :
    (m.load bytes start).read (start + i) = bytes[i] := by
  induction bytes generalizing m start i with
  | nil => exact absurd hi (Nat.not_lt_zero i)
  | cons b rest ih =>
    have hwf' : (m.write start b).wf := Memory.wf_write hwf start b
    rw [List.length_cons] at hlen hi
    cases i with
    | zero =>
      calc (m.load (b :: rest) start).read start = (m.write start b).read start :=
            Memory.read_load_outside hwf' rest (start + 1) fun i hi => by omega
        _ = b := (Memory.read_write hwf start start b).trans (if_pos rfl)
    | succ i =>
      rw [← Nat.add_assoc, Nat.add_right_comm]
      exact ih hwf' (start + 1) (by omega) (by omega)

/-- Settles O31: a program that fits has fewer bytes than there are cells. -/
theorem loaderCopiesBytes : Obligations.LoaderCopiesBytes := fun _ bytes start hwf hlen =>
  ⟨Memory.wf_load hwf bytes start,
    fun _ hi => Memory.read_load_inside hwf bytes start (hlen.trans (by decide)) hi,
    fun _ ha => Memory.read_load_outside hwf bytes start ha⟩

/-! ### The stored block, read by the next fetch (R73) and by Fx65 (R178, R179) -/

theorem val_regOfNat {k : Nat} (hk : k < 16) : (regOfNat k).val = k := Nat.mod_eq_of_lt hk

/-- Settles O32: both bytes of the word are bytes of the stored block. -/
theorem storeIsSeenByNextFetch : Obligations.StoreIsSeenByNextFetch := by
  intro x k s hwf hk hpc
  obtain ⟨-, t, hexec, hframe, hmem⟩ := saveStoresV0ToVx x s
  have hstored : ∀ j, j ≤ x.val → t.memRead (s.index.toNat + j) = s.reg (regOfNat j) := fun j hj => by
    have hval : (regOfNat j).val = j := val_regOfNat (by omega)
    have := (hmem hwf).1 (regOfNat j) (by rw [Fin.le_def, hval]; exact hj)
    rwa [hval] at this
  have hpc' : t.pc.toNat = s.index.toNat + k := by rw [hframe]; exact hpc
  refine ⟨t, hexec, ?_⟩
  rw [State.fetchWord, toNat_wordOfBytes, hpc', Nat.add_assoc, hstored k (by omega), hstored (k + 1) hk]

/-- Settles O21: the restore reads the block from the I that the save has left. -/
theorem savedBlockRestores : Obligations.SavedBlockRestores := by
  intro x s between hwf
  obtain ⟨-, t, hsave, hframe, hmem⟩ := saveStoresV0ToVx x s
  obtain ⟨-, u, hrestore, hregs, hloaded⟩ := restoreLoadsV0ToVx x { t with v := between }
  refine ⟨t, u, hsave, hrestore, by rw [hregs.1], fun r => (hloaded r).trans ?_⟩
  have hindex : t.index = s.index := by rw [hframe]
  by_cases hr : r ≤ x
  · rw [if_pos hr, if_pos hr, hindex]
    exact (hmem hwf).1 r hr
  · rw [if_neg hr, if_neg hr]
    rfl

end Sys2Proof.Machine
end

section
/-!
PROOFS. What every instruction and every step does: that they answer a next state (00_scope.md R6), the PC each
instruction leaves (10_state.md R24), the registers it leaves alone (10_state.md R20, R21; 30_encoding.md R102), and
the CpuStep in and outside Running (30_encoding.md R100, R101).
-/

namespace Sys2Proof.Machine

/-! ### Totality (R6) -/

/-- Every instruction answers a next state, the two that may fault included. -/
theorem exec_total (i : Instr) (s : State) : ∃ t, exec i s = .next t := by
  cases i with
  | call nnn => rcases exec_call_cases nnn s with ⟨-, e⟩ | ⟨-, e⟩ <;> exact ⟨_, e⟩
  | ret => rcases exec_ret_cases s with ⟨-, e⟩ | ⟨_, _, -, e⟩ <;> exact ⟨_, e⟩
  | _ => exact ⟨_, rfl⟩

/-- Every event answers a next state. -/
theorem State.deliver_total (s : State) (e : Event) : ∃ t, s.deliver e = .next t := by
  cases e with
  | cpuStep r =>
    rcases s.cpuStep_cases r with ⟨-, e⟩ | ⟨i, -, -, e⟩ | ⟨_, -, -, e⟩
    · exact ⟨s, e⟩
    · exact (exec_total i _).imp fun _ => e.trans
    · exact ⟨_, e⟩
  | _ => exact ⟨_, rfl⟩

/-- Settles O42: a step is an event delivered. -/
theorem stepAlwaysAnswers : Obligations.StepAlwaysAnswers := fun s =>
  s.nextEvent.2.deliver_total s.nextEvent.1

/-! ### PC (R24) -/

/-- The PC an instruction leaves is the table's. -/
theorem exec_pc {i : Instr} {s t : State} (h : exec i s = .next t) : t.pc = pcAfter i s := by
  cases i with
  | call nnn =>
    rcases exec_call_cases nnn s with ⟨hfull, e⟩ | ⟨hroom, e⟩ <;> rw [e] at h <;> cases h
    · exact (if_pos hfull).symm
    · exact (if_neg hroom).symm
  | ret =>
    rcases exec_ret_cases s with ⟨hempty, e⟩ | ⟨rest, u, hstack, e⟩ <;> rw [e] at h <;> cases h
    · simp [pcAfter, hempty]
    · simp [pcAfter, hstack]
  | seByte x kk => rw [exec_seByte] at h; cases h; simp only [pcAfter, BitVec.toNat_inj]
  | sneByte x kk => rw [exec_sneByte] at h; cases h; simp only [pcAfter, BitVec.toNat_inj]
  | seReg x y => rw [exec_seReg] at h; cases h; simp only [pcAfter, BitVec.toNat_inj]
  | sneReg x y => rw [exec_sneReg] at h; cases h; simp only [pcAfter, BitVec.toNat_inj]
  | skp x => rw [exec_skp] at h; cases h; rfl
  | sknp x => rw [exec_sknp] at h; cases h; rfl
  | ldMemVx x => cases h; rw [s.saveRegs_onlyMemory]; rfl
  | ldVxMem x => cases h; rw [(s.restoreRegs_onlyRegs _).1]; rfl
  | _ => cases h; rfl

/-- Settles O43. -/
theorem pcOutcomesFollowTable : Obligations.PcOutcomesFollowTable := fun i s =>
  (exec_total i s).imp fun _ h => ⟨h, exec_pc h⟩

/-! ### Registers, keys and the inputs of the step (R20, R21, R102) -/

/-- A register that an instruction neither loads nor, being VF, sets as a flag is as before. -/
theorem exec_reg_kept {i : Instr} {s t : State} {r : Reg} (h : exec i s = .next t)
    (hload : loadsReg r i = false) (hflag : setsFlag i = true → r ≠ 15) : t.reg r = s.reg r := by
  cases i with
  | ldByte | addByte | ldReg | orReg | andReg | xorReg | rnd | ldVxDt =>
    cases h
    exact (s.reg_setReg _ r _).trans (if_neg (beq_eq_false_iff_ne.1 hload).symm)
  | addReg | sub | shr | subn | shl =>
    cases h
    rw [s.reg_setRegAndFlag, if_neg (hflag rfl), if_neg (beq_eq_false_iff_ne.1 hload).symm]
  | drw x y n =>
    obtain ⟨u, e, -, hregs, -⟩ := exec_drw_spec x y n s
    cases e.symm.trans h
    exact hregs r (hflag rfl)
  | ldVxMem x =>
    cases h
    have hrx : ¬ r ≤ x := of_decide_eq_false hload
    rw [s.reg_restoreRegs _ x.isLt, if_neg fun hlt => hrx (Nat.le_of_lt_succ hlt)]
  | ldMemVx x => cases h; exact (s.saveRegs_reads _).1 r
  | call nnn => rcases exec_call_cases nnn s with ⟨-, e⟩ | ⟨-, e⟩ <;> rw [e] at h <;> cases h <;> rfl
  | ret => rcases exec_ret_cases s with ⟨-, e⟩ | ⟨_, _, -, e⟩ <;> rw [e] at h <;> cases h <;> rfl
  | seByte | sneByte | seReg | sneReg | skp | sknp => cases h; rw [State.skipIf_eq]; rfl
  | _ => cases h; rfl

/-- A flag instruction leaves 0 or 1 in VF, and writes it last. -/
theorem exec_flag {i : Instr} {s t : State} (h : exec i s = .next t) (hset : setsFlag i = true) :
    t.reg 15 = 0 ∨ t.reg 15 = 1 := by
  cases i with
  | addReg | sub | shr | subn | shl =>
    cases h
    rw [s.reg_setRegAndFlag_regF]
    exact (flagByte_eq_one_or_zero _).symm
  | drw x y n =>
    obtain ⟨u, e, -, -, hflag, -⟩ := exec_drw_spec x y n s
    cases e.symm.trans h
    rw [hflag]
    exact (flagByte_eq_one_or_zero _).symm
  | _ => cases hset

/-- Settles O44: an instruction that sets no flag keeps VF like any other register. -/
theorem onlyFlagInstructionsWriteVF : Obligations.OnlyFlagInstructionsWriteVF := fun i s =>
  (exec_total i s).imp fun _ h => ⟨h, exec_flag h, fun hset hload =>
    exec_reg_kept h hload fun hset' => absurd (hset.symm.trans hset') Bool.false_ne_true⟩

/-- No instruction changes the keys or the inputs of the step. -/
theorem exec_inputs_kept {i : Instr} {s t : State} (h : exec i s = .next t) :
    t.key = s.key ∧ t.draw = s.draw ∧ t.drawCount = s.drawCount ∧ t.script = s.script := by
  by_cases hi : touchesControl i = false
  · rw [exec_plain hi h]
    exact ⟨rfl, rfl, rfl, rfl⟩
  cases i with
  | call nnn =>
    rcases exec_call_cases nnn s with ⟨-, e⟩ | ⟨-, e⟩ <;> rw [e] at h <;> cases h <;> exact ⟨rfl, rfl, rfl, rfl⟩
  | ret =>
    rcases exec_ret_cases s with ⟨-, e⟩ | ⟨_, _, -, e⟩ <;> rw [e] at h <;> cases h <;> exact ⟨rfl, rfl, rfl, rfl⟩
  | ldVxK | ldDtVx | ldStVx => cases h; exact ⟨rfl, rfl, rfl, rfl⟩
  | _ => exact absurd rfl hi

/-- Settles O45. -/
theorem registersOutsideDestinationKept : Obligations.RegistersOutsideDestinationKept := by
  intro i s
  obtain ⟨t, h⟩ := exec_total i s
  obtain ⟨hkey, hdraw, hcount, hscript⟩ := exec_inputs_kept h
  exact ⟨t, h, hkey, hdraw, hcount, hscript, fun _ => exec_reg_kept h⟩

/-! ### The CpuStep (R100, R101) -/

/-- Settles O41, by the CpuSteps of the tick, each of which finds the state as it was. -/
theorem cpuStepsDoNothingUnlessRunning : Obligations.CpuStepsDoNothingUnlessRunning := by
  intro s draws hstop
  induction draws with
  | nil => rfl
  | cons r rest ih =>
    simp only [tickEvents, List.map_cons, State.deliverAll, State.deliver,
      State.cpuStep_of_not_running hstop r]
    exact ih

/-- In Running, a CpuStep on a word that decodes executes its instruction with PC past it and the draw in
place. -/
theorem State.cpuStep_of_decoded {s : State} {i : Instr} (hrun : s.runState = .running)
    (hi : decode s.fetchWord = .ok i) (r : Byte) :
    s.cpuStep r = exec i { s with pc := s.pc + 2, draw := r } := by
  rcases s.cpuStep_cases r with ⟨hstop, -⟩ | ⟨j, -, hj, hstep⟩ | ⟨_, -, he, -⟩
  · exact absurd hrun hstop
  · cases hi.symm.trans hj
    exact hstep
  · cases hi.symm.trans he

/-- The next event of a script is its head. -/
theorem State.nextEvent_of_script {s : State} {e : Event} {rest : List Event} (h : s.script = e :: rest) :
    s.nextEvent = (e, { s with script := rest, effects := [] }) := by
  rw [State.nextEvent, h]

/-- Where the script is empty the next event is a CpuStep with a draw of the free source. -/
theorem State.nextEvent_of_no_script {s : State} (h : s.script = []) : s.nextEvent =
    (.cpuStep (Config.randomDraw s.drawCount), { s with drawCount := s.drawCount + 1, effects := [] }) := by
  rw [State.nextEvent, h]

/-- Settles O39: either source delivers a CpuStep, to a state that fetches the same word. -/
theorem stepRunsDecodedInstruction : Obligations.StepRunsDecodedInstruction := by
  intro i s hrun hi
  refine ⟨fun r rest hscript => ?_, fun hscript => ?_⟩
  · rw [step, State.nextEvent_of_script hscript]
    let s' : State := { s with script := rest, effects := [] }
    exact s'.cpuStep_of_decoded hrun hi r
  · rw [step, State.nextEvent_of_no_script hscript]
    let s' : State := { s with drawCount := s.drawCount + 1, effects := [] }
    exact s'.cpuStep_of_decoded hrun hi (Config.randomDraw s.drawCount)

end Sys2Proof.Machine
end

section
/-!
PROOFS. The statements of 47_timers.md: the timer writes (R206, R207), the tick (R209, R213), the countdown (R210),
the sound of a countdown (R213) and who changes a timer (R212).
-/

namespace Sys2Proof.Machine

/-! ### The writes (R206, R207) -/

/-- A write sets the value, and starts the unit where the value is not 0. -/
theorem Timer.write_eq (t : Timer) (u : Byte) :
    t.write u = ⟨u, if u.toNat ≠ 0 then true else t.running⟩ := by
  simp only [Timer.write, BitVec.toNat_eq, ne_eq, ite_not]
  rfl

theorem exec_ldDtVx (x : Reg) (s : State) : exec (.ldDtVx x) s =
    .next { s with dt := ⟨s.reg x, if (s.reg x).toNat ≠ 0 then true else s.dt.running⟩ } := by
  rw [← Timer.write_eq]; rfl

theorem exec_ldStVx (x : Reg) (s : State) : exec (.ldStVx x) s =
    .next { s with st := ⟨s.reg x, if (s.reg x).toNat ≠ 0 then true else s.st.running⟩ } := by
  rw [← Timer.write_eq]; rfl

/-- Settles O24. -/
theorem timerWritesStartNonZero : Obligations.TimerWritesStartNonZero := fun x s =>
  ⟨⟨decode_classF x 0x15, exec_ldDtVx x s⟩, decode_classF x 0x18, exec_ldStVx x s⟩

/-! ### One tick (R209, R213) -/

/-- A stopped unit stays as it is. -/
theorem Timer.step_of_stopped {t : Timer} (h : t.running = false) : t.step = t := by
  rcases t.step_cases with ⟨-, e⟩ | ⟨hr, -⟩ | ⟨hr, -⟩ | ⟨hr, -⟩
  · exact e
  all_goals cases h.symm.trans hr

/-- A running unit goes one down, not below 0, and runs on exactly where that leaves it above 0. -/
theorem Timer.step_of_running {t : Timer} (h : t.running = true) :
    t.step.value.toNat = t.value.toNat - 1 ∧ (t.step.running = true ↔ 1 < t.value.toNat) := by
  rcases t.step_cases with ⟨hr, -⟩ | ⟨-, hv, e⟩ | ⟨-, hv, e⟩ | ⟨-, hv, e⟩
  · cases h.symm.trans hr
  · simp [e, hv]
  · simp [e, hv]
  · refine ⟨?_, by simp [e, hv]⟩
    have hlt := t.value.isLt
    have hone : (1 : Byte).toNat = 1 := rfl
    rw [e, toNat_sub_byte, hone]
    omega

theorem Timer.active_iff (t : Timer) : t.active = true ↔ t.running = true ∧ 0 < t.value.toNat := by
  rw [Timer.active, Bool.and_eq_true, decide_eq_true_iff]

/-- Settles O49: the two events step their own unit. -/
theorem timerStepCountsDown : Obligations.TimerStepCountsDown := by
  intro s
  refine ⟨s.onDtTick, s.onStTick, rfl, rfl, Timer.step_of_stopped, Timer.step_of_running, ?_⟩
  simp only [s.onStTick_eq, Timer.active_iff]
  exact ⟨Timer.step_of_stopped, Timer.step_of_running, rfl, trivial⟩

/-! ### Ticks in a row (R210) -/

/-- After `j` steps of a unit that runs with a value above 0. -/
theorem Timer.iterate_step {t : Timer} (hrun : t.running = true) (hpos : 0 < t.value.toNat) (j : Nat) :
    (Timer.step^[j] t).value.toNat = t.value.toNat - j ∧
      ((Timer.step^[j] t).running = true ↔ j < t.value.toNat) := by
  induction j with
  | zero => exact ⟨rfl, iff_of_true hrun hpos⟩
  | succ j ih =>
    obtain ⟨hvalue, hrunning⟩ := ih
    rw [Function.iterate_succ_apply']
    by_cases hj : j < t.value.toNat
    · obtain ⟨hv, hr⟩ := Timer.step_of_running (hrunning.2 hj)
      rw [hr, hv, hvalue]
      omega
    · have hstopped : (Timer.step^[j] t).running = false := Bool.eq_false_iff.2 (mt hrunning.1 hj)
      rw [Timer.step_of_stopped hstopped, hvalue, hstopped]
      exact ⟨by omega, iff_of_false Bool.false_ne_true (by omega)⟩

/-- DtTicks in a row step DT and nothing else. -/
theorem State.deliverAll_dtTicks (s : State) (j : Nat) :
    s.deliverAll (List.replicate j .dtTick) = .next { s with dt := Timer.step^[j] s.dt } := by
  induction j generalizing s with
  | zero => rfl
  | succ j ih => exact ih s.onDtTick

/-- The steps a unit has left until it stops; a stopped one has none. -/
def Timer.remaining (t : Timer) : Nat := if t.running then t.value.toNat else 0

theorem Timer.active_iff_remaining (t : Timer) : t.active = true ↔ 0 < t.remaining := by
  rw [Timer.active_iff, Timer.remaining]
  split <;> simp [*]

/-- Each step takes one from what remains. -/
theorem Timer.remaining_step (t : Timer) : t.step.remaining = t.remaining - 1 := by
  cases h : t.running with
  | false => simp [Timer.step_of_stopped h, Timer.remaining, h]
  | true =>
    obtain ⟨hv, hr⟩ := Timer.step_of_running h
    simp only [Timer.remaining, hr, hv, h, if_true]
    split <;> omega

/-- StTicks in a row step ST and emit PlaySound for as many of them as ST has steps left; nothing else
changes. -/
theorem State.deliverAll_stTicks (s : State) (j : Nat) :
    s.deliverAll (List.replicate j .stTick) = .next { s with
      st := Timer.step^[j] s.st
      effects := s.effects ++ List.replicate (min j s.st.remaining) .playSound } := by
  induction j generalizing s with
  | zero => simp [State.deliverAll]
  | succ j ih =>
    refine (ih s.onStTick).trans ?_
    have hsounds : (if s.st.active then [Effect.playSound] else []) ++
        List.replicate (min j s.st.step.remaining) .playSound =
        List.replicate (min (j + 1) s.st.remaining) .playSound := by
      rw [Timer.remaining_step]
      simp only [Timer.active_iff_remaining]
      cases s.st.remaining with
      | zero => simp
      | succ n => simp [List.replicate_succ, Nat.succ_min_succ]
    rw [s.onStTick_eq, List.append_assoc, hsounds]
    rfl

/-- A unit just written with N > 0 runs. -/
theorem Timer.write_of_pos (t : Timer) {u : Byte} (hu : 0 < u.toNat) : t.write u = ⟨u, true⟩ := by
  rw [Timer.write_eq, if_pos (Nat.ne_of_gt hu)]

/-- Settles O50: either write starts its unit, and the ticks step it. -/
theorem countdownTakesNTicks : Obligations.CountdownTakesNTicks := by
  intro x j s hpos
  have hcount (t : Timer) := Timer.iterate_step (t := t.write (s.reg x))
    (by rw [Timer.write_of_pos t hpos]) hpos j
  exact ⟨⟨_, _, rfl, State.deliverAll_dtTicks _ j, hcount s.dt⟩,
    ⟨_, _, rfl, State.deliverAll_stTicks _ j, hcount s.st⟩⟩

/-- Settles O51: an StTick sounds while ST has steps left, and a write of N > 0 gives it N. -/
theorem soundPlaysForNTicks : Obligations.SoundPlaysForNTicks := by
  refine ⟨fun s => ⟨s.onStTick, rfl, ?_⟩, fun s => ⟨s.onDtTick, rfl, rfl⟩, fun x j s hpos => ?_⟩
  · simp only [s.onStTick_eq, Timer.active_iff]
    cases h : s.st.running with
    | false => simp [Timer.step_of_stopped h, h]
    | true => simp [Timer.step_of_running h]
  · have hleft : (s.st.write (s.reg x)).remaining = (s.reg x).toNat := by
      rw [Timer.write_of_pos _ hpos]; rfl
    exact ⟨_, _, rfl, State.deliverAll_stTicks _ j, by rw [← hleft]⟩

/-! ### Who changes a timer (R212) -/

/-- What an instruction can do to the timers: leave both, or be the write of one of them and nothing else. -/
theorem exec_timer_cases {i : Instr} {s t : State} (h : exec i s = .next t) :
    (t.dt = s.dt ∧ t.st = s.st) ∨
    (∃ x, i = .ldDtVx x ∧ t = { s with dt := s.dt.write (s.reg x) }) ∨
    (∃ x, i = .ldStVx x ∧ t = { s with st := s.st.write (s.reg x) }) := by
  by_cases hi : touchesControl i = false
  · rw [exec_plain hi h]
    exact .inl ⟨rfl, rfl⟩
  cases i with
  | call nnn =>
    rcases exec_call_cases nnn s with ⟨-, e⟩ | ⟨-, e⟩ <;> rw [e] at h <;> cases h <;> exact .inl ⟨rfl, rfl⟩
  | ret =>
    rcases exec_ret_cases s with ⟨-, e⟩ | ⟨_, _, -, e⟩ <;> rw [e] at h <;> cases h <;> exact .inl ⟨rfl, rfl⟩
  | ldVxK x => cases h; exact .inl ⟨rfl, rfl⟩
  | ldDtVx x => cases h; exact .inr (.inl ⟨x, rfl, rfl⟩)
  | ldStVx x => cases h; exact .inr (.inr ⟨x, rfl, rfl⟩)
  | _ => exact absurd rfl hi

theorem exec_dt_kept {i : Instr} {s t : State} (h : exec i s = .next t) (hi : ∀ x, i ≠ .ldDtVx x) :
    t.dt = s.dt := by
  rcases exec_timer_cases h with ⟨hdt, -⟩ | ⟨x, rfl, -⟩ | ⟨x, -, rfl⟩
  · exact hdt
  · exact absurd rfl (hi x)
  · rfl

theorem exec_st_kept {i : Instr} {s t : State} (h : exec i s = .next t) (hi : ∀ x, i ≠ .ldStVx x) :
    t.st = s.st := by
  rcases exec_timer_cases h with ⟨-, hst⟩ | ⟨x, -, rfl⟩ | ⟨x, rfl, -⟩
  · exact hst
  · rfl
  · exact absurd rfl (hi x)

/-- A CpuStep leaves a timer that the instruction of its word does not write. -/
theorem State.cpuStep_timers {r : Byte} {s t : State} (h : s.cpuStep r = .next t) :
    ((∀ x, decode s.fetchWord ≠ .ok (.ldDtVx x)) → t.dt = s.dt) ∧
    ((∀ x, decode s.fetchWord ≠ .ok (.ldStVx x)) → t.st = s.st) := by
  rcases s.cpuStep_cases r with ⟨-, e⟩ | ⟨i, -, hi, e⟩ | ⟨_, -, -, e⟩ <;> rw [e] at h
  · cases h
    exact ⟨fun _ => rfl, fun _ => rfl⟩
  · have hdt := exec_dt_kept h
    have hst := exec_st_kept h
    exact ⟨fun hno => hdt fun x hx => hno x (hx ▸ hi), fun hno => hst fun x hx => hno x (hx ▸ hi)⟩
  · cases h
    exact ⟨fun _ => rfl, fun _ => rfl⟩

/-- A key going down leaves the timers, whether it ends a wait or not. -/
theorem State.onKeyDown_timers (s : State) (k : KeyCode) :
    (s.onKeyDown k).dt = s.dt ∧ (s.onKeyDown k).st = s.st := by
  rcases s.onKeyDown_cases k with ⟨_, -, e⟩ | ⟨-, e⟩ <;> rw [e] <;> exact ⟨rfl, rfl⟩

/-- Settles O46, by the instruction and by the event. -/
theorem timersAreIndependent : Obligations.TimersAreIndependent := by
  refine ⟨fun i s t h => ⟨exec_dt_kept h, exec_st_kept h⟩, fun e s t h hload => ?_, fun s t h => ?_,
    fun s t h => ?_⟩
  · cases e with
    | cpuStep r =>
      obtain ⟨hdt, hst⟩ := State.cpuStep_timers h
      exact ⟨fun _ hno => hdt fun x => hno r x rfl, fun _ hno => hst fun x => hno r x rfl⟩
    | dtTick => cases h; exact ⟨fun hne => absurd rfl hne, fun _ _ => rfl⟩
    | stTick => cases h; rw [s.onStTick_eq]; exact ⟨fun _ _ => rfl, fun hne => absurd rfl hne⟩
    | keyDown k =>
      cases h
      obtain ⟨hdt, hst⟩ := s.onKeyDown_timers k
      exact ⟨fun _ _ => hdt, fun _ _ => hst⟩
    | loadProgram bytes => exact absurd rfl (hload bytes)
    | keyUp | loadFailure => cases h; exact ⟨fun _ _ => rfl, fun _ _ => rfl⟩
  · cases h; rfl
  · cases h; rw [s.onStTick_eq]

end Sys2Proof.Machine
end

section
/-!
PROOFS. The statements of 48_display.md about the second draw (R226 to R228, R230) and the two read ports (R214 of
47_timers.md, R231).
-/

namespace Sys2Proof.Machine

/-! ### The read ports (R214, R231) -/

theorem State.getCell_of_outside (s : State) {c r : Nat} (h : 64 ≤ c ∨ 32 ≤ r) : s.getCell c r = false :=
  dif_neg fun hin => by omega

/-- Settles O28: under the invariant a unit above 0 runs. -/
theorem portsReadState : Obligations.PortsReadState := by
  intro s
  have hactive : s.soundActive = true ↔ s.st.running = true ∧ 0 < s.st.value.toNat := s.st.active_iff
  refine ⟨fun _ _ hc hr => s.getCell_of_lt hc hr, fun _ _ h => s.getCell_of_outside h, hactive, fun hinv => ?_⟩
  rw [hactive, and_iff_right_iff_imp]
  intro hpos
  exact hinv.stRuns fun h0 => by simp [h0] at hpos

/-! ### The same draw twice (R226 to R228) -/

/-- A sprite's pixels depend on I and memory alone. -/
theorem State.spriteCells_congr {s t : State} (hindex : t.index = s.index) (hmem : t.mem = s.mem)
    (x0 y0 n : Nat) : t.spriteCells x0 y0 n = s.spriteCells x0 y0 n := by
  unfold State.spriteCells State.memRead State.effAddr
  rw [hindex, hmem]

/-- Inverting the same pixels twice restores the grid. -/
theorem Grid.eq_of_inverted_twice {g h k : Grid} {l : List Pixel}
    (hgh : ∀ q, h.at q = (g.at q ^^ decide (q ∈ l))) (hhk : ∀ q, k.at q = (h.at q ^^ decide (q ∈ l))) :
    k = g :=
  Grid.ext_at fun q => by rw [hhk, hgh, Bool.xor_assoc, Bool.xor_self, Bool.xor_false]

/-- Among inverted pixels one is on afterwards exactly when one was off before. -/
theorem Grid.any_on_after_inverted {g h : Grid} {l : List Pixel}
    (hgh : ∀ q, h.at q = (g.at q ^^ decide (q ∈ l))) :
    (l.any fun p => h.at p) = true ↔ ∃ p ∈ l, g.at p = false := by
  rw [List.any_eq_true]
  refine exists_congr fun p => and_congr_right fun hp => ?_
  simp [hgh, hp]

/-- A pixel that the sprite lights and that is off, seen through the port. -/
theorem State.exists_lit_off (s : State) (x0 y0 n : Nat) :
    (∃ p ∈ s.spriteCells x0 y0 n, s.disp.at p = false) ↔
      ∃ c r, c < 64 ∧ r < 32 ∧ spriteLights s x0 y0 n c r ∧ s.getCell c r = false := by
  constructor
  · rintro ⟨⟨c, r⟩, hlit, hoff⟩
    exact ⟨c, r, c.isLt, r.isLt, (mem_spriteCells s).1 hlit, (s.getCell_of_lt c.isLt r.isLt).trans hoff⟩
  · rintro ⟨c, r, hc, hr, hlit, hoff⟩
    exact ⟨(⟨c, hc⟩, ⟨r, hr⟩), (mem_spriteCells s).2 hlit, (s.getCell_of_lt hc hr).symm.trans hoff⟩

/-- Settles O27: VF is neither coordinate, so both draws invert the same pixels. -/
theorem drawTwiceRestoresGrid : Obligations.DrawTwiceRestoresGrid := by
  intro x y n s hx hy
  obtain ⟨t, hfirst, hframe, hregs, -, hgrid⟩ := exec_drw_spec x y n s
  obtain ⟨u, hsecond, -, -, hflag, hgrid'⟩ := exec_drw_spec x y n t
  rw [hregs x hx, hregs y hy, State.spriteCells_congr (s := s) (by rw [hframe]) (by rw [hframe])]
    at hflag hgrid'
  refine ⟨t, u, hfirst, hsecond, Grid.eq_of_inverted_twice hgrid hgrid', ?_⟩
  rw [hflag, flagByte_eq_one, Grid.any_on_after_inverted hgrid, s.exists_lit_off]

end Sys2Proof.Machine
end

section
/-!
PROOFS. The statements of 70_reset_and_hazards.md: power-on (R280), the load (R281) and its failures (R282, R283).
-/

namespace Sys2Proof.Machine

/-! ### Memory at power-on (R280) -/

/-- The font fills the cells below 80; `getD` gives 0 past its end. -/
theorem Memory.unlisted_eq (a : Nat) : Memory.unlisted a = if a < 80 then Config.font.getD a 0 else 0 := by
  have hlen : Config.font.length = 80 := rfl
  change (if 0 ≤ a then Config.font.getD (a - 0) 0 else 0) = _
  rw [if_pos (Nat.zero_le a), Nat.sub_zero]
  split
  · rfl
  · rw [List.getD_eq_default _ _ (by omega)]

/-- Every cell of the power-on memory holds the font or 0. -/
theorem Memory.read_reset {a : Nat} (ha : a < 4096) :
    State.reset.mem.read a = if a < 80 then Config.font.getD a 0 else 0 := by
  rw [← Memory.unlisted_eq]
  exact congrArg Memory.unlisted (Nat.mod_eq_of_lt ha)

theorem State.reg_of_reset {s : State} (h : s.v = State.reset.v) (r : Reg) : s.reg r = 0 := by
  rw [State.reg, h]
  exact Vector.getElem_replicate r.isLt

theorem key_reset (k : KeyCode) : State.reset.key.get k = false := Vector.getElem_replicate k.isLt

/-! ### Power-on (R280) -/

/-- A slot that was up, set and cleared, gives the state back. -/
theorem State.setKey_setKey_of_up {s : State} {k : KeyCode} (h : s.keyPressed k = false) :
    (s.setKey k true).setKey k false = s := by
  have hk : s.key[k.val] = false := h
  have hkey : (s.key.set k.val true k.isLt).set k.val false k.isLt = s.key := by
    rw [Vector.set_set, ← hk, Vector.set_getElem_self]
  unfold State.setKey
  rw [hkey]

/-- Settles O54. -/
theorem powerOnState : Obligations.PowerOnState := by
  refine ⟨State.reg_of_reset rfl, rfl, rfl, rfl, rfl, rfl, State.getCell_of_clear rfl, key_reset, rfl,
    fun a ha => ?_, fun a hfont ha => ?_, fun _ => rfl, rfl, rfl, fun k => ?_⟩
  · exact (Memory.read_reset (by omega)).trans (if_pos ha)
  · exact (Memory.read_reset ha).trans (if_neg (Nat.not_lt.2 hfont))
  · exact ⟨State.reset.setKey k true, rfl, State.reset.keyPressed_setKey_self k true,
      congrArg Host.Outcome.next (State.setKey_setKey_of_up (key_reset k))⟩

/-! ### The load (R281 to R283) -/

theorem State.onLoadProgram_of_fits (s : State) {bytes : List Byte} (h : bytes.length ≤ 3584) :
    s.onLoadProgram bytes = { State.reset with
      mem := Memory.load State.reset.mem bytes 0x200, runState := .running,
      draw := s.draw, drawCount := s.drawCount, script := s.script, effects := s.effects } := by
  rcases s.onLoadProgram_cases bytes with ⟨-, e⟩ | ⟨hlong, -⟩
  · exact e
  · omega

theorem State.onLoadProgram_of_long (s : State) {bytes : List Byte} (h : 3584 < bytes.length) :
    s.onLoadProgram bytes = s.onLoadFailure := by
  rcases s.onLoadProgram_cases bytes with ⟨hfits, -⟩ | ⟨-, e⟩
  · omega
  · exact e

/-- Settles O53. -/
theorem failedLoadStops : Obligations.FailedLoadStops := fun s =>
  ⟨rfl, fun _ hlong => congrArg Host.Outcome.next (s.onLoadProgram_of_long hlong)⟩

/-- Settles O52: the load fills the reset memory, whose cells outside the program hold the font or 0. -/
theorem loadProgramResetsEverything : Obligations.LoadProgramResetsEverything := by
  intro s bytes hlen
  obtain ⟨-, hinside, houtside⟩ := loaderCopiesBytes State.reset.mem bytes 0x200 Memory.wf_reset hlen
  refine ⟨_, congrArg Host.Outcome.next (s.onLoadProgram_of_fits hlen), State.reg_of_reset rfl, rfl, rfl, rfl,
    rfl, rfl, State.getCell_of_clear rfl, key_reset, rfl, rfl, hinside, fun a ha hout => ?_⟩
  exact (houtside a fun i hi => by omega).trans (Memory.read_reset ha)

end Sys2Proof.Machine
end

section
/-!
PROOFS. That no event redirects the machine (60_exceptions.md R249), how each run-state is entered (10_state.md R31)
and the invariant (10_state.md R39; 60_exceptions.md R241 to R246).
-/

namespace Sys2Proof.Machine

/-! ### No interrupts (R249) -/

/-- An event that is neither a CpuStep nor a load leaves PC, the stack, I, the display, memory and the model's
inputs as they are. -/
theorem State.deliver_frame {e : Event} {s t : State} (h : s.deliver e = .next t) (hcpu : ∀ r, e ≠ .cpuStep r)
    (hload : ∀ bytes, e ≠ .loadProgram bytes) :
    t = { s with v := t.v, dt := t.dt, st := t.st, key := t.key, runState := t.runState, effects := t.effects } := by
  cases e with
  | cpuStep r => exact absurd rfl (hcpu r)
  | loadProgram bytes => exact absurd rfl (hload bytes)
  | stTick => cases h; rw [s.onStTick_eq]
  | keyDown k =>
    cases h
    rcases s.onKeyDown_cases k with ⟨_, -, e⟩ | ⟨-, e⟩ <;> rw [e] <;> rfl
  | dtTick | keyUp | loadFailure => cases h; rfl

/-- A key going down writes no register but the one that waits. -/
theorem State.onKeyDown_reg {s : State} {r : Reg} (hr : s.runState ≠ .waitingForKey r) (k : KeyCode) :
    (s.onKeyDown k).reg r = s.reg r := by
  rcases s.onKeyDown_cases k with ⟨x, hx, e⟩ | ⟨-, e⟩ <;> rw [e]
  · exact ((s.setKey k true).reg_setReg x r (keyByte k)).trans (if_neg fun hrx : r = x => hr (hrx ▸ hx))
  · rfl

/-- Settles O55: of these events only a KeyDown in a wait writes a register. -/
theorem eventsNeverRedirectPc : Obligations.EventsNeverRedirectPc := by
  intro e s t h hcpu hload
  have hframe := State.deliver_frame h hcpu hload
  refine ⟨by rw [hframe], by rw [hframe], by rw [hframe], by rw [hframe],
    sameMemory_of_mem_eq (by rw [hframe]), fun r hr => ?_⟩
  cases e with
  | cpuStep r => exact absurd rfl (hcpu r)
  | loadProgram bytes => exact absurd rfl (hload bytes)
  | stTick => cases h; rw [s.onStTick_eq]; rfl
  | keyDown k => cases h; exact State.onKeyDown_reg hr k
  | dtTick | keyUp | loadFailure => cases h; rfl

/-! ### How a run-state is entered (R31) -/

/-- What an event can do to the run-state: keep it, or one of the entries of the table. -/
inductive RunState.Entry (e : Event) (s : State) : RunState → Prop where
  | kept : Entry e s s.runState
  | loadFailure : e = .loadFailure → Entry e s .stopped
  | longProgram (bytes : List Byte) : e = .loadProgram bytes → 3584 < bytes.length → Entry e s .stopped
  | program (bytes : List Byte) : e = .loadProgram bytes → bytes.length ≤ 3584 → Entry e s .running
  | key (k : KeyCode) (x : Reg) : e = .keyDown k → s.runState = .waitingForKey x → Entry e s .running
  | wait (r : Byte) (x : Reg) : e = .cpuStep r → s.runState = .running →
      decode s.fetchWord = .ok (.ldVxK x) → Entry e s (.waitingForKey x)
  | fault (r : Byte) (f : FaultRecord) : e = .cpuStep r → s.runState = .running → f.addr = s.pc →
      Entry e s (.halted f)

/-- A CpuStep keeps the run-state, waits on `Fx0A`, or halts with the fetch address. -/
theorem State.cpuStep_entry {r : Byte} {s t : State} (h : s.cpuStep r = .next t) :
    RunState.Entry (.cpuStep r) s t.runState := by
  rcases s.cpuStep_cases r with ⟨-, hstep⟩ | ⟨i, hrun, hi, hstep⟩ | ⟨_, hrun, -, hstep⟩ <;> rw [hstep] at h
  · cases h; exact .kept
  · have haddr : State.fetchAddr { s with pc := s.pc + 2, draw := r } = s.pc := State.fetchAddr_of_pc _ rfl
    rcases exec_runState h with hkept | ⟨x, rfl, rfl⟩ | ⟨_, -, -, rfl⟩ | ⟨-, -, rfl⟩
    · rw [hkept]; exact .kept
    · exact .wait r x rfl hrun hi
    · exact .fault r _ rfl hrun haddr
    · exact .fault r _ rfl hrun haddr
  · cases h; exact .fault r _ rfl hrun rfl

/-- Every event enters a run-state by the table, or keeps it. -/
theorem State.deliver_entry {e : Event} {s t : State} (h : s.deliver e = .next t) :
    RunState.Entry e s t.runState := by
  cases e with
  | cpuStep r => exact State.cpuStep_entry h
  | stTick => cases h; rw [s.onStTick_eq]; exact .kept
  | keyDown k =>
    cases h
    rcases s.onKeyDown_cases k with ⟨x, hx, e⟩ | ⟨-, e⟩ <;> rw [e]
    · exact .key k x rfl hx
    · exact .kept
  | loadProgram bytes =>
    cases h
    rcases s.onLoadProgram_cases bytes with ⟨hfits, e⟩ | ⟨hlong, e⟩ <;> rw [e]
    · exact .program bytes rfl hfits
    · exact .longProgram bytes rfl hlong
  | loadFailure => cases h; exact .loadFailure rfl
  | dtTick | keyUp => cases h; exact .kept

/-- Settles O58, by the entry. -/
theorem runStateIsEnteredByTable : Obligations.RunStateIsEnteredByTable := by
  intro e s t h hne
  have hentry := State.deliver_entry h
  generalize t.runState = q at hentry hne
  cases hentry with
  | kept => exact absurd rfl hne
  | loadFailure he => exact ⟨fun _ => .inl he, nofun, nofun, nofun⟩
  | longProgram bytes he hlong => exact ⟨fun _ => .inr ⟨bytes, he, hlong⟩, nofun, nofun, nofun⟩
  | program bytes he hfits => exact ⟨nofun, fun _ => .inl ⟨bytes, he, hfits⟩, nofun, nofun⟩
  | key k x he hx => exact ⟨nofun, fun _ => .inr ⟨k, x, he, hx⟩, nofun, nofun⟩
  | wait r x he hrun hi =>
    refine ⟨nofun, nofun, fun y hy => ?_, nofun⟩
    cases hy
    exact ⟨hrun, ⟨r, he⟩, hi⟩
  | fault r f he hrun haddr =>
    refine ⟨nofun, nofun, nofun, fun g hg => ?_⟩
    cases hg
    exact ⟨hrun, ⟨r, he⟩, haddr⟩

/-! ### What an instruction does to each clause of the invariant (R39) -/

/-- CALL pushes below depth 16 only, and no other instruction pushes. -/
theorem exec_stackDepth {i : Instr} {s t : State} (hdepth : s.stack.length ≤ 16) (h : exec i s = .next t) :
    t.stack.length ≤ 16 := by
  by_cases hi : touchesControl i = false
  · rw [exec_plain hi h]; exact hdepth
  cases i with
  | call nnn =>
    rcases exec_call_cases nnn s with ⟨-, e⟩ | ⟨hroom, e⟩ <;> rw [e] at h <;> cases h
    · exact hdepth
    · rw [List.length_append]
      exact Nat.lt_of_le_of_ne hdepth hroom
  | ret =>
    rcases exec_ret_cases s with ⟨-, e⟩ | ⟨rest, u, hstack, e⟩ <;> rw [e] at h <;> cases h
    · exact hdepth
    · rw [hstack, List.length_append] at hdepth
      exact (Nat.le_add_right _ _).trans hdepth
  | ldVxK | ldDtVx | ldStVx => cases h; exact hdepth
  | _ => exact absurd rfl hi

/-- Instructions keep "a value above 0 runs": they write a timer by `Timer.write` only. -/
theorem exec_timers_run {i : Instr} {s t : State} (hdt : s.dt.value ≠ 0 → s.dt.running = true)
    (hst : s.st.value ≠ 0 → s.st.running = true) (h : exec i s = .next t) :
    (t.dt.value ≠ 0 → t.dt.running = true) ∧ (t.st.value ≠ 0 → t.st.running = true) := by
  rcases exec_timer_cases h with ⟨hdt', hst'⟩ | ⟨x, -, rfl⟩ | ⟨x, -, rfl⟩
  · rw [hdt', hst']; exact ⟨hdt, hst⟩
  · exact ⟨s.dt.write_runs _, hst⟩
  · exact ⟨hdt, s.st.write_runs _⟩

/-- Instructions keep the canonical form of memory: the stores write through the port. -/
theorem exec_mem_wf {i : Instr} {s t : State} (hwf : s.mem.wf) (h : exec i s = .next t) : t.mem.wf := by
  by_cases hB : ∃ x, i = .ldBVx x
  · obtain ⟨x, rfl⟩ := hB
    cases h
    exact Memory.wf_write (Memory.wf_write (Memory.wf_write hwf _ _) _ _) _ _
  by_cases hM : ∃ x, i = .ldMemVx x
  · obtain ⟨x, rfl⟩ := hM
    cases h
    exact s.saveRegs_wf hwf _
  rw [exec_mem_of_not_store h (not_exists.1 hB) (not_exists.1 hM)]
  exact hwf

/-- A running machine that an instruction halts has a record that agrees with it. -/
theorem exec_record_agrees {i : Instr} {s t : State} {f : FaultRecord} (hrun : s.runState = .running)
    (h : exec i s = .next t) (hf : t.runState = .halted f) : f.Agrees t := by
  have hpast : s.pc = s.fetchAddr + 2 := (BitVec.sub_add_cancel s.pc 2).symm
  rcases exec_runState h with hkept | ⟨x, -, rfl⟩ | ⟨nnn, rfl, hfull, rfl⟩ | ⟨rfl, hempty, rfl⟩
  · cases hf.symm.trans (hkept.trans hrun)
  · cases hf
  · cases hf
    have hclass : (encode (.call nnn)).toNat / 4096 = 2 := by
      have hlt := nnn.isLt
      rw [encode, toNat_formatNNN]
      change (2 * 4096 + nnn.toNat) / 4096 = 2
      omega
    exact ⟨hpast, fun _ => ⟨hfull, hclass⟩, nofun, nofun⟩
  · cases hf
    exact ⟨hpast, nofun, fun _ => ⟨hempty, rfl⟩, nofun⟩

/-- An instruction executed by a running machine keeps the invariant. -/
theorem exec_inv {i : Instr} {s t : State} (hs : s.Inv) (hrun : s.runState = .running)
    (h : exec i s = .next t) : t.Inv := by
  obtain ⟨hdepth, hdt, hst, hmem, -⟩ := hs
  obtain ⟨hdt', hst'⟩ := exec_timers_run hdt hst h
  exact ⟨exec_stackDepth hdepth h, hdt', hst', exec_mem_wf hmem h, fun _ => exec_record_agrees hrun h⟩

/-! ### What an event does to the invariant -/

/-- The record reads PC and the stack alone. -/
theorem FaultRecord.Agrees.congr {f : FaultRecord} {s t : State} (h : f.Agrees s) (hpc : t.pc = s.pc)
    (hstack : t.stack = s.stack) : f.Agrees t := by
  obtain ⟨hpast, hover, hunder, hunknown⟩ := h
  exact ⟨hpc ▸ hpast, hstack ▸ hover, hstack ▸ hunder, hunknown⟩

/-- A change that leaves PC, the stack and memory, keeps the timers' clause and halts nothing keeps the
invariant. -/
theorem State.Inv.of_frame {s t : State} (hs : s.Inv) (hpc : t.pc = s.pc) (hstack : t.stack = s.stack)
    (hmem : t.mem = s.mem) (hdt : t.dt.value ≠ 0 → t.dt.running = true)
    (hst : t.st.value ≠ 0 → t.st.running = true)
    (hhalt : ∀ f, t.runState = .halted f → s.runState = .halted f) : t.Inv :=
  ⟨hstack ▸ hs.stackDepth, hdt, hst, hmem ▸ hs.memory,
    fun f hf => (hs.record f (hhalt f hf)).congr hpc hstack⟩

/-- A word that does not decode matches no row of the opcode table. -/
theorem wellFormedWord_of_error {w : Word} {e : DecodeError} (h : decode w = .error e) :
    wellFormedWord w = false := by
  rw [wellFormedWord, List.any_eq_false]
  intro row hrow hcovers
  obtain ⟨i, -, hi⟩ := exists_decode_of_row hrow (beq_iff_eq.1 hcovers)
  cases h.symm.trans hi

/-- A CpuStep keeps the invariant. -/
theorem State.cpuStep_inv {r : Byte} {s t : State} (hs : s.Inv) (h : s.cpuStep r = .next t) : t.Inv := by
  rcases s.cpuStep_cases r with ⟨-, e⟩ | ⟨i, hrun, -, e⟩ | ⟨_, -, herror, e⟩ <;> rw [e] at h
  · cases h; exact hs
  · have hs' : State.Inv { s with pc := s.pc + 2, draw := r } :=
      ⟨hs.stackDepth, hs.dtRuns, hs.stRuns, hs.memory, fun f hf => by cases hrun.symm.trans hf⟩
    exact exec_inv hs' hrun h
  · cases h
    refine ⟨hs.stackDepth, hs.dtRuns, hs.stRuns, hs.memory, fun f hf => ?_⟩
    cases hf
    exact ⟨rfl, nofun, nofun, fun _ => wellFormedWord_of_error herror⟩

/-- Settles O60. -/
theorem powerOnMeetsInvariant : Obligations.PowerOnMeetsInvariant :=
  ⟨Nat.zero_le 16, fun h => absurd rfl h, fun h => absurd rfl h, Memory.wf_reset, nofun⟩

theorem State.onLoadFailure_inv {s : State} (hs : s.Inv) : s.onLoadFailure.Inv :=
  hs.of_frame rfl rfl rfl hs.dtRuns hs.stRuns nofun

/-- A load that fits leaves the power-on state with the program in memory, and one that does not is a failure. -/
theorem State.onLoadProgram_inv {s : State} (hs : s.Inv) (bytes : List Byte) : (s.onLoadProgram bytes).Inv := by
  rcases s.onLoadProgram_cases bytes with ⟨-, e⟩ | ⟨-, e⟩ <;> rw [e]
  · obtain ⟨hdepth, hdt, hst, hmem, -⟩ := powerOnMeetsInvariant
    exact ⟨hdepth, hdt, hst, Memory.wf_load hmem bytes 0x200, nofun⟩
  · exact State.onLoadFailure_inv hs

/-- A key going down keeps the invariant: where it changes the run-state, the engine runs. -/
theorem State.onKeyDown_inv {s : State} (hs : s.Inv) (k : KeyCode) : (s.onKeyDown k).Inv := by
  rcases s.onKeyDown_cases k with ⟨x, -, e⟩ | ⟨-, e⟩ <;> rw [e]
  · exact hs.of_frame rfl rfl rfl hs.dtRuns hs.stRuns nofun
  · exact hs.of_frame rfl rfl rfl hs.dtRuns hs.stRuns fun _ => id

/-- Every event keeps the invariant. -/
theorem State.deliver_inv {e : Event} {s t : State} (hs : s.Inv) (h : s.deliver e = .next t) : t.Inv := by
  cases e with
  | cpuStep r => exact State.cpuStep_inv hs h
  | dtTick => cases h; exact hs.of_frame rfl rfl rfl (Timer.step_runs hs.dtRuns) hs.stRuns fun _ => id
  | stTick =>
    cases h
    rw [s.onStTick_eq]
    exact hs.of_frame rfl rfl rfl hs.dtRuns (Timer.step_runs hs.stRuns) fun _ => id
  | keyDown k => cases h; exact State.onKeyDown_inv hs k
  | keyUp k => cases h; exact hs.of_frame rfl rfl rfl hs.dtRuns hs.stRuns fun _ => id
  | loadProgram bytes => cases h; exact State.onLoadProgram_inv hs bytes
  | loadFailure => cases h; exact State.onLoadFailure_inv hs

/-- Settles O59: the model's own fields, which the next event takes, are none of the invariant's. -/
theorem everyStepKeepsInvariant : Obligations.EveryStepKeepsInvariant := by
  intro s t hs h
  refine State.deliver_inv (s := s.nextEvent.2) ?_ h
  rw [s.nextEvent_state]
  exact hs.of_frame rfl rfl rfl hs.dtRuns hs.stRuns fun _ => id

end Sys2Proof.Machine
end
